-- ==== Sys2Proof/Word.lean ====
section
/-! DEFINITION. The bit-vector types of OWM's port and registers (00_scope.md R6: `BYTE`, `CRCW`, `DW`, `TW`, `AW`). -/

namespace Sys2Proof

/-- A bus byte, the checksum, the read accumulator: `BYTE` = `CRCW` = 8 bits (R6). -/
abbrev Byte := BitVec 8

/-- One register as the host port moves it, and one duration: `DW` = `TW` = 16 bits (R6, R46). -/
abbrev Word := BitVec 16

/-- A register index: `AW` = 5 bits, 32 slots (R6, R26). -/
abbrev Index := BitVec 5

end Sys2Proof
end

