-- ==== Sys2Proof/Syntax.lean ====
section
/-! DEFINITION. The commands of OWM, one constructor per row of spec/opcode_table.json, and the raw fields of a command
word. -/

namespace Sys2Proof

/-- The seven commands (30_encoding.md R63). -/
inductive Instr
  /-- NOP (R87). -/
  | nop
  /-- OW_RESET: reset pulse and presence detect (R100). -/
  | owReset
  /-- OW_WRITE_BYTE: send `imm8`, bit 0 first (R110). -/
  | owWriteByte (imm8 : Byte)
  /-- OW_READ_BYTE: read a byte, bit 0 first (R120). -/
  | owReadByte
  /-- CRC_CLEAR (R131). -/
  | crcClear
  /-- CRC_UPDATE: fold `imm8` into the checksum (R132). -/
  | crcUpdate (imm8 : Byte)
  /-- CRC_CHECK: compare the checksum with `imm8` (R133). -/
  | crcCheck (imm8 : Byte)
deriving DecidableEq, Repr

/-- The two uses of the one command layout (R61): N has no operand, I has a byte operand. -/
inductive Format
  | n
  | i
deriving DecidableEq, Repr

/-- The raw fields of a 16-bit command word (R61), before any check. -/
structure Fields where
  /-- bits [15:8] -/
  imm8 : Byte
  /-- bits [7:4] -/
  zero : BitVec 4
  /-- bits [3:0] -/
  opcode : BitVec 4
deriving DecidableEq, Repr

/-- Why a command word is reserved (R65). The hardware keeps no cause (R47); the name is the decoder's own (log entry 9). -/
inductive Reserved
  /-- `zero` is not 0b0000. -/
  | zeroField
  /-- a format-N command with `imm8` not 0x00. -/
  | operandNotZero
  /-- `opcode` 0x7 to 0xF. -/
  | noSuchOpcode
deriving DecidableEq, Repr

/-- The commands that are accepted only while idle (R64: the three bus commands). -/
def Instr.needsIdle : Instr → Bool
  | .nop => false
  | .owReset => true
  | .owWriteByte _ => true
  | .owReadByte => true
  | .crcClear => false
  | .crcUpdate _ => false
  | .crcCheck _ => false

end Sys2Proof
end

