-- ==== Sys2Proof/WellFormed.lean ====
section
/-! DEFINITION. Well-formedness. An `Instr` carries its operand as 8 bits, so every term of it is well formed; what can be
ill formed is the raw `Fields` of a command word, and the three checks here are those of 30_encoding.md R61 and R65. -/

namespace Sys2Proof

/-- The format of each opcode (R63); none for the opcodes 0x7 to 0xF, which no row has. -/
def opcodeFormat (op : BitVec 4) : Option Format :=
  if op = 0x0 then some .n
  else if op = 0x1 then some .n
  else if op = 0x2 then some .i
  else if op = 0x3 then some .n
  else if op = 0x4 then some .n
  else if op = 0x5 then some .i
  else if op = 0x6 then some .i
  else none

/-- Check 1 (R61): `zero` is 0b0000. -/
def Fields.zeroOk (f : Fields) : Bool := f.zero == 0

/-- Check 2 (R65): the opcode is one of the seven. -/
def Fields.opcodeOk (f : Fields) : Bool := (opcodeFormat f.opcode).isSome

/-- Check 3 (R61): a format-N command has `imm8` = 0x00. -/
def Fields.operandOk (f : Fields) : Bool := opcodeFormat f.opcode != some .n || f.imm8 == 0

/-- The fields are those of a command: all three checks. -/
def Fields.wellFormed (f : Fields) : Bool := f.zeroOk && f.opcodeOk && f.operandOk

/-- Every command is well formed: its operand is any of the 256 bytes, "used as it stands" (R61). -/
def Instr.wellFormed : Instr → Bool
  | .nop => true
  | .owReset => true
  | .owWriteByte _ => true
  | .owReadByte => true
  | .crcClear => true
  | .crcUpdate _ => true
  | .crcCheck _ => true

end Sys2Proof
end

