-- ==== Sys2Proof/Decode.lean ====
section
/-! DEFINITION. The decoder of 30_encoding.md R62, total on every 16-bit word and rejecting reserved words by name; after it
the encoder, and the opcode table of R63 as data. -/

namespace Sys2Proof

/-- `v[3:0]` (R61). -/
def opcodeOf (v : Word) : BitVec 4 := v.extractLsb' 0 4

/-- `v[7:4]` (R61). -/
def zeroOf (v : Word) : BitVec 4 := v.extractLsb' 4 4

/-- `v[15:8]` (R54, R61). -/
def imm8Of (v : Word) : Byte := v.extractLsb' 8 8

/-- A word cut into its fields (R61). -/
def fieldsOf (v : Word) : Fields := { imm8 := imm8Of v, zero := zeroOf v, opcode := opcodeOf v }

/-- A format-N command: reserved when `imm8` is not 0x00 (R61, R62). -/
def withoutOperand (imm8 : Byte) (i : Instr) : Except Reserved Instr :=
  if imm8 = 0 then .ok i else .error .operandNotZero

/-- The decode of R62, without the test of `busy` (that one is the meaning's, R64). -/
def decode (v : Word) : Except Reserved Instr :=
  if zeroOf v ≠ 0 then .error .zeroField
  else if opcodeOf v = 0x0 then withoutOperand (imm8Of v) .nop
  else if opcodeOf v = 0x1 then withoutOperand (imm8Of v) .owReset
  else if opcodeOf v = 0x2 then .ok (.owWriteByte (imm8Of v))
  else if opcodeOf v = 0x3 then withoutOperand (imm8Of v) .owReadByte
  else if opcodeOf v = 0x4 then withoutOperand (imm8Of v) .crcClear
  else if opcodeOf v = 0x5 then .ok (.crcUpdate (imm8Of v))
  else if opcodeOf v = 0x6 then .ok (.crcCheck (imm8Of v))
  else .error .noSuchOpcode

/-- `{imm8, 0b0000, opcode}` (R61), "that is `(b << 8) | opcode`" (R68). -/
def commandWord (imm8 : Byte) (opcode : BitVec 4) : Word := (imm8.setWidth 16 <<< 8) ||| opcode.setWidth 16

/-- The word of a command (R63, R68). -/
def encode : Instr → Word
  | .nop => commandWord 0x00 0x0
  | .owReset => commandWord 0x00 0x1
  | .owWriteByte imm8 => commandWord imm8 0x2
  | .owReadByte => commandWord 0x00 0x3
  | .crcClear => commandWord 0x00 0x4
  | .crcUpdate imm8 => commandWord imm8 0x5
  | .crcCheck imm8 => commandWord imm8 0x6

/-- One row of R63's table: a word `v` is that command if and only if `v & mask == pattern`. -/
structure OpcodeRow where
  mnemonic : String
  pattern : Word
  mask : Word
  command : Byte → Instr

/-- The opcode table (R63; spec/opcode_table.json), row for row. -/
def opcodeTable : List OpcodeRow :=
  [ { mnemonic := "NOP", pattern := 0x0000, mask := 0xFFFF, command := fun _ => .nop },
    { mnemonic := "OW_RESET", pattern := 0x0001, mask := 0xFFFF, command := fun _ => .owReset },
    { mnemonic := "OW_WRITE_BYTE", pattern := 0x0002, mask := 0x00FF, command := .owWriteByte },
    { mnemonic := "OW_READ_BYTE", pattern := 0x0003, mask := 0xFFFF, command := fun _ => .owReadByte },
    { mnemonic := "CRC_CLEAR", pattern := 0x0004, mask := 0xFFFF, command := fun _ => .crcClear },
    { mnemonic := "CRC_UPDATE", pattern := 0x0005, mask := 0x00FF, command := .crcUpdate },
    { mnemonic := "CRC_CHECK", pattern := 0x0006, mask := 0x00FF, command := .crcCheck } ]

/-- The row's test of R63. -/
def OpcodeRow.hits (r : OpcodeRow) (v : Word) : Bool := v &&& r.mask == r.pattern

/-- The decoder written from the table, refusing everything else (R66). -/
def tableDecode (v : Word) : Option Instr :=
  (opcodeTable.find? (·.hits v)).map (·.command (imm8Of v))

/-- The host's probe of the decoder: the command whose word, numbered as spec/opcode_table.json numbers bits, is `w`
(`nbits` of them, the rest 0); none for a reserved word and for a length no command has (R67). -/
def decodeTableWord (nbits w : Nat) : Option Instr :=
  if nbits ≤ 16 then (decode (BitVec.ofNat 16 (w % 2 ^ nbits))).toOption else none

end Sys2Proof
end

