-- ==== Sys2Proof/Config.lean ====
section
/-! DEFINITION. What the spec fixes once for the block (00_scope.md R6), its two open parameters, and the one free
value: what the devices on the line do in a cycle. -/

namespace Sys2Proof.Config

/-- `POLY`, the reflected polynomial constant of the checksum (R6, R132). -/
def poly : Byte := 0x8C

/-- `SEED`, the checksum's start value (R6, R131). -/
def seed : Byte := 0x00

/-- FREE VALUE (log entry 2, safe). `slaveLow k` is the environment's choice `slave_low` of cycle `k` (R86): true when at
least one device pulls the line low. The spec puts no rule on it ("any value", 93_implementation_defined.md U5), so it
has no body; it is used for the cycles whose choice `State.lineInputs` does not list. -/
opaque slaveLow : Nat → Bool

/-- OPEN PARAMETER `T_UNIT` (R6, R7, R195; log entry 8): the real length of a clock cycle, nominally 1 µs, here counted in
picoseconds. No rule depends on it and no definition reads it. -/
opaque tUnit : Nat

/-- OPEN PARAMETER `BASE` (R6, R26, R168; log entry 8): where a platform places register index 0 in its address map. No
rule depends on it and no definition reads it: the model works on indices. -/
opaque base : Nat

end Sys2Proof.Config
end

