-- ==== Sys2Proof/Machine/State.lean ====
section
/-! DEFINITION. The state of OWM (10_state.md R16 to R25, R30), the inputs of its next cycles as plain data, and the reasons
a step can stop. -/

namespace Sys2Proof.Machine

/-- The TimingProfile: ten durations of 16 bits (R16). -/
abbrev Profile := Vector Word 10

/-- One element of the sequencer's list (R21, R80). A count is a number of cycles, 1 to 65535 in every reachable state
(R91), so it is a natural number and not a bit vector. -/
inductive Segment
  /-- `LOW(n)`: pull the line low for `n` cycles. -/
  | low (n : Nat)
  /-- `REL(n)`: leave the line released for `n` cycles. -/
  | rel (n : Nat)
  /-- `SAMPLE_P`: one released cycle that samples the presence pulse. -/
  | sampleP
  /-- `SAMPLE_D`: one released cycle that samples a data bit. -/
  | sampleD
deriving DecidableEq, Repr

/-- The input ports of one cycle that the host drives (R10). -/
structure HostInput where
  /-- `rst` -/
  rst : Bool
  /-- `h_we` -/
  we : Bool
  /-- `h_re` -/
  re : Bool
  /-- `h_idx` -/
  idx : Index
  /-- `h_wdata` -/
  wdata : Word
deriving DecidableEq, Repr

/-- OWM raises no exception and cannot be stuck (60_exceptions.md R160, R88): no step ends in a fault, so the type has no
constructor (safe). A host write that OWM cannot honour is a NEXT state with `cmderr` set (R47). -/
inductive Fault
deriving DecidableEq, Repr

/-- Why a step is refused. -/
inductive Refusal
  /-- Raised by no arm of exec: every command has its meaning. Safe. -/
  | notModelled (mnemonic : String)
  /-- Raised by the step of a cycle with `h_we` = `h_re` = 1 and no reset: a stimulus outside the port's contract, which
  "a model refuses" (10_state.md R13, 93_implementation_defined.md U6). Safe. -/
  | bothStrobes
deriving DecidableEq, Repr

/-- The machine: the block's state (00_scope.md R9), then the model's own three fields for the inputs of its cycles. -/
structure State where
  /-- `prof[0..9]`, indices 0x10 to 0x19 (R16). -/
  prof : Profile
  /-- `rx`, the read accumulator (R19). -/
  rx : Byte
  /-- `crc`, the running checksum (R20). -/
  crc : Byte
  /-- `presence`, STATUS bit 1 (R23). -/
  presence : Bool
  /-- `crc_match`, STATUS bit 2 (R24). -/
  crcMatch : Bool
  /-- `cmderr`, sticky, STATUS bit 3 (R25). -/
  cmderr : Bool
  /-- `seq`, the sequencer's work list; empty means idle (R21). -/
  seq : List Segment
  /-- MODEL'S OWN (log entry 1): the host's inputs of this cycle (the head) and of the cycles after it. -/
  hostInputs : List HostInput
  /-- MODEL'S OWN (log entry 2): the environment's `slave_low` of this cycle (the head) and of the cycles after it. -/
  lineInputs : List Bool
  /-- MODEL'S OWN (log entry 2): how many cycles have been stepped; it gives each cycle its own free value. -/
  cycle : Nat
deriving DecidableEq, Repr

/-- The reset state (10_state.md R30). The last three fields are the model's own (log entries 1 and 2, DESIGN CHOICE): no
input is listed. -/
def State.reset : State :=
  { prof := Vector.replicate 10 0x0000
    rx := 0x00
    crc := 0x00
    presence := false
    crcMatch := false
    cmderr := false
    seq := []
    hostInputs := []
    lineInputs := []
    cycle := 0 }

end Sys2Proof.Machine
end

