-- ==== Sys2Proof/Machine/Flags.lean ====
section
/-! DEFINITION. The four flags of STATUS and how each is computed (10_state.md R22 to R27). -/

namespace Sys2Proof.Machine

/-- `busy`: `seq` is not empty (R22). -/
def State.busy (s : State) : Bool := !s.seq.isEmpty

/-- The presence result of a sampled level: 1 if the line is low (R82, R102). -/
def presenceOf (level : Bool) : Bool := !level

/-- The result of CRC_CHECK: equality (R133). -/
def crcMatchOf (crc imm8 : Byte) : Bool := crc == imm8

/-- STATUS = `zext_16({cmderr, crc_match, presence, busy})` (R27). -/
def statusWord (s : State) : Word :=
  (BitVec.ofBool s.cmderr ++ BitVec.ofBool s.crcMatch ++ BitVec.ofBool s.presence
    ++ BitVec.ofBool s.busy).setWidth 16

end Sys2Proof.Machine
end

