-- ==== Sys2Proof/Machine/Operands.lean ====
section
/-! DEFINITION. The operands of the commands: the named durations of the profile, the bits of a byte in line order, and the
waveforms a bus command builds from them (40_sequencer.md R80, R84; files 41 to 43). -/

namespace Sys2Proof.Machine

/-- `T_RSTL`, reset-hold, `prof[0]` (R16). -/
def tRstl (p : Profile) : Nat := p[0].toNat
/-- `T_PDS`, presence-sample-delay, `prof[1]` (R16). -/
def tPds (p : Profile) : Nat := p[1].toNat
/-- `T_RSTR`, reset-recovery, `prof[2]` (R16). -/
def tRstr (p : Profile) : Nat := p[2].toNat
/-- `T_W0L`, write-0-hold, `prof[3]` (R16). -/
def tW0l (p : Profile) : Nat := p[3].toNat
/-- `T_W0R`, write-recovery for a 0, `prof[4]` (R16). -/
def tW0r (p : Profile) : Nat := p[4].toNat
/-- `T_W1L`, write-1-hold, `prof[5]` (R16). -/
def tW1l (p : Profile) : Nat := p[5].toNat
/-- `T_W1R`, write-recovery for a 1, `prof[6]` (R16). -/
def tW1r (p : Profile) : Nat := p[6].toNat
/-- `T_RDL`, read-initiate, `prof[7]` (R16). -/
def tRdl (p : Profile) : Nat := p[7].toNat
/-- `T_RDS`, read-sample-delay, `prof[8]` (R16). -/
def tRds (p : Profile) : Nat := p[8].toNat
/-- `T_RDR`, read-recovery, `prof[9]` (R16). -/
def tRdr (p : Profile) : Nat := p[9].toNat

/-- A segment of length 0 takes no cycle and is absent; a sample never is (R84). -/
def segmentPresent : Segment → Bool
  | .low n => n != 0
  | .rel n => n != 0
  | .sampleP => true
  | .sampleD => true

/-- `norm(W)` of the spec: `W` without its zero segments (R84). -/
def normWave (w : List Segment) : List Segment := w.filter segmentPresent

/-- The cycles one segment takes (R80). -/
def segmentCycles : Segment → Nat
  | .low n => n
  | .rel n => n
  | .sampleP => 1
  | .sampleD => 1

/-- The cycles a list of segments takes: the `D` of R194 for a waveform, the cycles still to play for a `seq`. -/
def waveCycles : List Segment → Nat
  | [] => 0
  | g :: w => segmentCycles g + waveCycles w

/-- The waveform of OW_RESET (R100). -/
def resetWave (p : Profile) : List Segment :=
  [.low (tRstl p), .rel (tPds p), .sampleP, .rel (tRstr p)]

/-- `wslot(b)` (R111). -/
def writeSlot (p : Profile) (b : Bool) : List Segment :=
  if b then [.low (tW1l p), .rel (tW1r p)] else [.low (tW0l p), .rel (tW0r p)]

/-- The bits of a byte in the order they travel, least significant first (R52). -/
def lineBits (b : Byte) : List Bool :=
  [b[0], b[1], b[2], b[3], b[4], b[5], b[6], b[7]]

/-- The waveform of OW_WRITE_BYTE: one slot per bit, slot `i` carrying bit `i` (R110, R112). -/
def writeWave (p : Profile) (imm8 : Byte) : List Segment :=
  (lineBits imm8).flatMap (writeSlot p)

/-- `rslot` (R121). -/
def readSlot (p : Profile) : List Segment :=
  [.low (tRdl p), .rel (tRds p), .sampleD, .rel (tRdr p)]

/-- The waveform of OW_READ_BYTE: eight read slots (R120). -/
def readWave (p : Profile) : List Segment :=
  (List.replicate 8 (readSlot p)).flatten

end Sys2Proof.Machine
end

