-- ==== Sys2Proof/Machine/Ops.lean ====
section
/-! DEFINITION. The operations the commands and the step share: the named updates of State, the refused write, the bus
command's test of idle, the line, the sequencer's step, the register port, and the end of a cycle.

Taking an exception: OWM has none (60_exceptions.md R160, R163), so there is no entry and no return. What stands in its
place is ONE shared operation, `refuseWrite` (R47, R161). -/

namespace Sys2Proof.Machine

/-- `prof[i] <- v`. -/
def State.setProf (s : State) (i : Fin 10) (v : Word) : State := { s with prof := s.prof.set i v }
/-- `rx <- b`. -/
def State.setRx (s : State) (b : Byte) : State := { s with rx := b }
/-- `crc <- b`. -/
def State.setCrc (s : State) (b : Byte) : State := { s with crc := b }
/-- `presence <- b`. -/
def State.setPresence (s : State) (b : Bool) : State := { s with presence := b }
/-- `crc_match <- b`. -/
def State.setCrcMatch (s : State) (b : Bool) : State := { s with crcMatch := b }
/-- `cmderr <- b`. -/
def State.setCmderr (s : State) (b : Bool) : State := { s with cmderr := b }
/-- `seq <- w`. -/
def State.setSeq (s : State) (w : List Segment) : State := { s with seq := w }

/-- A refused host write does one thing: `cmderr <- 1` (R47). It stands where an ISA takes an exception (R161, R163). -/
def refuseWrite (s : State) : State := s.setCmderr true

/-- A bus command: its effect while idle, cause E1 while busy (R62, R64). -/
def busCommand (effect : State → State) (s : State) : State :=
  if s.busy then refuseWrite s else effect s

/-- Accept: the next state's `seq` is `norm(W)` (R83). -/
def loadWave (w : List Segment) (s : State) : State := s.setSeq (normWave w)

/-! ### The line (40_sequencer.md R85, R86) -/

/-- `ow_pull_low` of a work list: 1 exactly when its head is a LOW segment (R14, R85). -/
def pullsLow : List Segment → Bool
  | .low _ :: _ => true
  | .rel _ :: _ => false
  | .sampleP :: _ => false
  | .sampleD :: _ => false
  | [] => false

/-- The output port `ow_pull_low` of this cycle (R10, R14). -/
def owPullLow (s : State) : Bool := pullsLow s.seq

/-- The environment's choice `slave_low` in the cycle `k` cycles from now: the listed one, else a free value (R86, U5; log
entry 2). -/
def slaveLowAt (s : State) (k : Nat) : Bool := s.lineInputs[k]?.getD (Config.slaveLow (s.cycle + k))

/-- The line law: high if and only if nobody pulls low (R86). -/
def lineLevel (pullLow slaveLow : Bool) : Bool := !pullLow && !slaveLow

/-- `ow_in` of this cycle (R10, R86). -/
def owIn (s : State) : Bool := lineLevel (owPullLow s) (slaveLowAt s 0)

/-! ### The sequencer (40_sequencer.md R81, R82) -/

/-- `{ow_in, rx[7:1]}`: shift right by one, the sampled level into bit 7 (R82, R122). -/
def shiftIn (level : Bool) (rx : Byte) : Byte := BitVec.ofBool level ++ rx.extractLsb' 1 7

/-- One segment-cycle off the work list (R81). -/
def advanceSeq : List Segment → List Segment
  | [] => []
  | .low n :: w => if n > 1 then .low (n - 1) :: w else w
  | .rel n :: w => if n > 1 then .rel (n - 1) :: w else w
  | .sampleP :: w => w
  | .sampleD :: w => w

/-- The sequencer's writes of a cycle, computed from `s` = `S_k` and applied to `t`, which is `S_k` with the host's write of
the same cycle applied (R42, R81). An idle sequencer writes nothing. -/
def sequencerWrites (s t : State) : State :=
  match s.seq with
  | [] => t
  | .low _ :: _ => t.setSeq (advanceSeq s.seq)
  | .rel _ :: _ => t.setSeq (advanceSeq s.seq)
  | .sampleP :: _ => (t.setPresence (presenceOf (owIn s))).setSeq (advanceSeq s.seq)
  | .sampleD :: _ => (t.setRx (shiftIn (owIn s) s.rx)).setSeq (advanceSeq s.seq)

/-! ### The host port (20_memory.md R44, R45) -/

/-- The index is that of `prof[i]`: `0x10 + i` (R26). -/
def profileIndex (idx : Index) : Option (Fin 10) :=
  if h : 16 ≤ idx.toNat ∧ idx.toNat ≤ 25 then some ⟨idx.toNat - 16, by omega⟩ else none

/-- `MemRead(idx, 2)` (R44). CMD and every reserved index read as 0x0000. -/
def readRegister (s : State) (idx : Index) : Word :=
  if idx = 0x01 then statusWord s
  else if idx = 0x02 then s.rx.setWidth 16
  else if idx = 0x03 then s.crc.setWidth 16
  else
    match profileIndex idx with
    | some i => s.prof[i]
    | none => 0x0000

/-- `MemWrite(idx, 2, v)` at an index other than CMD (R45): a profile register while idle, else refused (E2, E4). -/
def writeRegister (idx : Index) (v : Word) (s : State) : State :=
  match profileIndex idx with
  | some i => if s.busy then refuseWrite s else s.setProf i v
  | none => refuseWrite s

/-- The inputs of a cycle in which the host does nothing (R13, `IDLE 1` of R68). -/
def noAccess : HostInput := { rst := false, we := false, re := false, idx := 0, wdata := 0 }

/-- The host's inputs in the cycle `k` cycles from now; past the listed ones the host does nothing (log entry 1). -/
def hostInputAt (s : State) (k : Nat) : HostInput := s.hostInputs[k]?.getD noAccess

/-- The output port `h_rdata` of this cycle, "valid in the cycle of the read" (R10, R44): none in a cycle that is no read
(log entry 5). It reads `S_k`, also in a reset cycle (R12). -/
def hRdata (s : State) : Option Word :=
  let h := hostInputAt s 0
  if h.re && !h.we then some (readRegister s h.idx) else none

/-- What the host makes OWM do in a cycle. -/
inductive HostAction
  /-- `rst = 1`: it overrides everything (R12, R162). -/
  | reset
  /-- both strobes: no meaning (R13). -/
  | malformed
  /-- no access, or a read: no state changes (R44). -/
  | quiet
  /-- a write to CMD (R45, R60). -/
  | command (v : Word)
  /-- a write to any other index (R45). -/
  | write (idx : Index) (v : Word)
deriving DecidableEq, Repr

/-- The action of a cycle's inputs: reset first (R162; log entry 4), then the strobes (R13). -/
def hostAction (h : HostInput) : HostAction :=
  if h.rst then .reset
  else if h.we && h.re then .malformed
  else if h.we then (if h.idx = 0x00 then .command h.wdata else .write h.idx h.wdata)
  else .quiet

/-! ### The end of a cycle -/

/-- The cycle's inputs are used up and the next cycle's stand first. -/
def State.popInputs (s : State) : State :=
  { s with hostInputs := s.hostInputs.tail, lineInputs := s.lineInputs.tail, cycle := s.cycle + 1 }

/-- `S_{k+1}`: the writes of the sequencer and of the host applied to `S_k` (R42 (4)); `t` is `s` with the host's. -/
def endCycle (s t : State) : State := (sequencerWrites s t).popInputs

/-- `S_{k+1}` of a cycle with `rst = 1`: the reset state (R12, R30, R180). The inputs of later cycles and the cycle counter
are the host's and the environment's and go on (log entry 3). -/
def resetCycle (s : State) : State :=
  ({ State.reset with hostInputs := s.hostInputs, lineInputs := s.lineInputs, cycle := s.cycle } : State).popInputs

end Sys2Proof.Machine
end

