-- ==== Sys2Proof/Machine/Bus.lean ====
section
/-! DEFINITION. The meanings of the three bus commands (files 41, 42, 43). Each is the effect of the cycle the command is
written in; the waveform it loads is played by the step, cycle by cycle (R81). -/

namespace Sys2Proof.Machine

/-- OW_RESET: load the reset pulse and presence sample (R100). -/
def execOwReset (s : State) : Host.Outcome State Fault Refusal :=
  .next (busCommand (fun s => loadWave (resetWave s.prof) s) s)

/-- OW_WRITE_BYTE: load eight write slots (R110). -/
def execOwWriteByte (imm8 : Byte) (s : State) : Host.Outcome State Fault Refusal :=
  .next (busCommand (fun s => loadWave (writeWave s.prof imm8) s) s)

/-- OW_READ_BYTE: clear `rx`, load eight read slots (R120). -/
def execOwReadByte (s : State) : Host.Outcome State Fault Refusal :=
  .next (busCommand (fun s => loadWave (readWave s.prof) (s.setRx 0x00)) s)

end Sys2Proof.Machine
end

