-- ==== Sys2Proof/Machine/Control.lean ====
section
/-! DEFINITION. The meaning of NOP (40_sequencer.md). -/

namespace Sys2Proof.Machine

/-- NOP: nothing, in any cycle, busy or idle (R87). -/
def execNop (s : State) : Host.Outcome State Fault Refusal := .next s

end Sys2Proof.Machine
end

