-- ==== Sys2Proof/Machine/Crc.lean ====
section
/-! DEFINITION. The CRC-8 unit and the meanings of its three commands (44_crc.md). -/

namespace Sys2Proof.Machine

/-- One shift step: right by one, the constant folded in when the bit shifted out was 1 (R132). -/
def crcShift (c : Byte) : Byte := if c.getLsbD 0 then (c >>> 1) ^^^ Config.poly else c >>> 1

/-- `upd(c, b)`: exclusive-or, then eight shift steps (R132, R134). -/
def crcUpd (c b : Byte) : Byte := Nat.repeat crcShift 8 (c ^^^ b)

/-- `checksum(b_0 ... b_{n-1})` (R134). -/
def checksum (bs : List Byte) : Byte := bs.foldl crcUpd Config.seed

/-- CRC_CLEAR (R131). -/
def execCrcClear (s : State) : Host.Outcome State Fault Refusal := .next (s.setCrc Config.seed)

/-- CRC_UPDATE (R132). -/
def execCrcUpdate (imm8 : Byte) (s : State) : Host.Outcome State Fault Refusal :=
  .next (s.setCrc (crcUpd s.crc imm8))

/-- CRC_CHECK (R133). -/
def execCrcCheck (imm8 : Byte) (s : State) : Host.Outcome State Fault Refusal :=
  .next (s.setCrcMatch (crcMatchOf s.crc imm8))

end Sys2Proof.Machine
end

