-- ==== Sys2Proof/Machine/Dispatch.lean ====
section
/-! DEFINITION. One arm per command: what the write of the command's word does, decoded against the state at the start of the
cycle (30_encoding.md R62). -/

namespace Sys2Proof.Machine

def exec (i : Instr) (s : State) : Host.Outcome State Fault Refusal :=
  match i with
  | .nop => Sys2Proof.Machine.execNop s
  | .owReset => Sys2Proof.Machine.execOwReset s
  | .owWriteByte imm8 => Sys2Proof.Machine.execOwWriteByte imm8 s
  | .owReadByte => Sys2Proof.Machine.execOwReadByte s
  | .crcClear => Sys2Proof.Machine.execCrcClear s
  | .crcUpdate imm8 => Sys2Proof.Machine.execCrcUpdate imm8 s
  | .crcCheck imm8 => Sys2Proof.Machine.execCrcCheck imm8 s

end Sys2Proof.Machine
end

