-- ==== Sys2Proof/Machine/Step.lean ====
section
/-! DEFINITION. One step is one clock cycle: `S_{k+1} = step(S_k, rst_k, access_k, ow_in_k)` (10_state.md R11), the inputs
read from the state's own lists. -/

namespace Sys2Proof.Machine

/-- A cycle: reset, or the host's write decoded against `S_k` and the sequencer's own step applied together (R42, R162). -/
def step (s : State) : Host.Outcome State Fault Refusal :=
  match hostAction (hostInputAt s 0) with
  | .reset => .next (resetCycle s)
  | .malformed => .refused .bothStrobes
  | .quiet => .next (endCycle s s)
  | .write idx v => .next (endCycle s (writeRegister idx v s))
  | .command v =>
    match decode v with
    | .error _ => .next (endCycle s (refuseWrite s))
    | .ok i =>
      match exec i s with
      | .next t => .next (endCycle s t)
      | .fault f => .fault f
      | .refused r => .refused r

/-- The inputs of a cycle in which the host writes `v` to CMD (`WR 0x00, v`, R68). -/
def writeCommand (v : Word) : HostInput :=
  { rst := false, we := true, re := false, idx := 0x00, wdata := v }

/-- The host writes the word `w` to CMD in this very cycle, in place of what it would have done: the next step decodes and
runs it (log entry 1). -/
def State.withFetchWord (s : State) (nbits w : Nat) : State :=
  { s with hostInputs := writeCommand (BitVec.ofNat 16 (w % 2 ^ nbits)) :: s.hostInputs.tail }

end Sys2Proof.Machine
end

