-- ==== Sys2Proof/Machine/HostScript.lean ====
section
/-! DEFINITION. The host's side, BESIDE the block: the host-script notation of 30_encoding.md R68, R69 and the source's
transactions of 45_transactions.md (R140: none of it is enforced by, or built into, the block; `step` does not use this
file). A script puts its own access into the host port of each cycle; the line's choices stay those of the state. -/

namespace Sys2Proof.Machine

/-- `MemWrite(idx, 2, v)` as the ports of a cycle (R68). -/
def hostWrite (idx : Index) (v : Word) : HostInput :=
  { rst := false, we := true, re := false, idx := idx, wdata := v }

/-- `MemRead(idx, 2)` as the ports of a cycle (R68). -/
def hostRead (idx : Index) : HostInput :=
  { rst := false, we := false, re := true, idx := idx, wdata := 0 }

/-- One cycle with `rst = 1` and no access (R69). -/
def hostReset : HostInput := { rst := true, we := false, re := false, idx := 0, wdata := 0 }

/-- The statements of a host script (R68, R69). -/
inductive HostStmt
  /-- `WR idx, v` -/
  | wr (idx : Index) (v : Word)
  /-- `RD idx` -/
  | rd (idx : Index)
  /-- `IDLE n` -/
  | idle (n : Nat)
  /-- one of the seven mnemonics: `WR 0x00, <its word>` -/
  | command (i : Instr)
  /-- `RESET_PULSE` -/
  | resetPulse
  /-- `PROFILE p0, ..., p9` -/
  | profile (p : Profile)
  /-- `WAIT` -/
  | wait
deriving DecidableEq, Repr

/-- One outcome after another. -/
def andThen {α β : Type} (o : Host.Outcome α Fault Refusal) (f : α → Host.Outcome β Fault Refusal) :
    Host.Outcome β Fault Refusal :=
  match o with
  | .next a => f a
  | .fault r => .fault r
  | .refused r => .refused r

/-- The state with the host's access of this cycle on the port and nothing listed after it. -/
def State.present (s : State) (h : HostInput) : State := { s with hostInputs := [h] }

/-- The given accesses, one a cycle. -/
def driveAll : List HostInput → State → Host.Outcome State Fault Refusal
  | [], s => .next s
  | h :: hs, s => andThen (step (s.present h)) (driveAll hs)

/-- Read STATUS until bit 0 is 0 (R69), at most `fuel` times. -/
def waitIdle : Nat → State → Host.Outcome State Fault Refusal
  | 0, s => .next s
  | fuel + 1, s =>
    andThen (step (s.present (hostRead 0x01))) fun t =>
      if (readRegister s 0x01)[0] then waitIdle fuel t else .next t

/-- The ten writes of `PROFILE`, in index order (R69). -/
def profileWrites (p : Profile) : List HostInput :=
  (List.finRange 10).map fun i => hostWrite (BitVec.ofNat 5 (0x10 + i.val)) p[i]

/-- One statement. `WAIT` reads as often as the operation in progress can need: its remaining cycles and one (R50, R69; log
entry 10). -/
def runStmt (st : HostStmt) (s : State) : Host.Outcome State Fault Refusal :=
  match st with
  | .wr idx v => driveAll [hostWrite idx v] s
  | .rd idx => driveAll [hostRead idx] s
  | .idle n => driveAll (List.replicate n noAccess) s
  | .command i => driveAll [hostWrite 0x00 (encode i)] s
  | .resetPulse => driveAll [hostReset] s
  | .profile p => driveAll (profileWrites p) s
  | .wait => waitIdle (waveCycles s.seq + 1) s

/-- A script, statement after statement. -/
def runScript : List HostStmt → State → Host.Outcome State Fault Refusal
  | [], s => .next s
  | st :: sts, s => andThen (runStmt st s) (runScript sts)

/-- `RD idx` with the value it returns, which is that of `S_k` (R44, R68). -/
def readValue (idx : Index) (s : State) : Host.Outcome (State × Word) Fault Refusal :=
  andThen (runStmt (.rd idx) s) fun t => .next (t, readRegister s idx)

/-- `CALL_RESET` (R69): its result is STATUS bit 1, which the state after the read still holds, the block being idle. -/
def callReset : List HostStmt := [.command .owReset, .wait, .rd 0x01]

/-- `CALL_WRITE b` (R69). -/
def callWrite (b : Byte) : List HostStmt := [.command (.owWriteByte b), .wait]

/-- `CALL_READ` (R69): its result is RXDATA, which the state after the read still holds, the block being idle. -/
def callRead : List HostStmt := [.command .owReadByte, .wait, .rd 0x02]

/-- STATUS bit 1 as the host reads it. -/
def presenceRead (s : State) : Bool := (readRegister s 0x01)[1]

/-- `CALL_READ` `n` times; the bytes in the order received (R53). -/
def readBytes : Nat → State → Host.Outcome (State × List Byte) Fault Refusal
  | 0, s => .next (s, [])
  | n + 1, s =>
    andThen (runScript callRead s) fun t =>
      andThen (readBytes n t) fun r => .next (r.1, (readRegister t 0x02).setWidth 8 :: r.2)

/-- `CALL_RESET`, and the rest of the transaction only if a device is present (R141). -/
def ifPresent {α : Type} (s : State) (rest : State → Host.Outcome (State × α) Fault Refusal) :
    Host.Outcome (State × Option α) Fault Refusal :=
  andThen (runScript callReset s) fun t =>
    if presenceRead t then andThen (rest t) fun r => .next (r.1, some r.2) else .next (t, none)

/-- The convert transaction (R143). The two byte values are the host's (R142). -/
def startConversion (skip convert : Byte) (s : State) :
    Host.Outcome (State × Option Unit) Fault Refusal :=
  ifPresent s fun t => andThen (runScript (callWrite skip ++ callWrite convert) t) fun u => .next (u, ())

/-- The validation of a device address `a` with expected checksum `x` (R135). -/
def validation (a : List Byte) (x : Byte) : List HostStmt :=
  .command .crcClear :: a.map (fun b => .command (.crcUpdate b)) ++ [.command (.crcCheck x)]

/-- The address read and its validation (R146): the eight bytes, and `ok = (RD STATUS)[2]`, whether they are valid. -/
def addressRead (readRom : Byte) (s : State) :
    Host.Outcome (State × Option (List Byte × Bool)) Fault Refusal :=
  ifPresent s fun t =>
    andThen (runScript (callWrite readRom) t) fun u =>
      andThen (readBytes 8 u) fun r =>
        andThen (runScript (validation (r.2.take 7) (r.2.getD 7 0)) r.1) fun v =>
          andThen (readValue 0x01 v) fun w => .next (w.1, (r.2, w.2[2]))

/-- `reading = ((S[1] & 0x0F) << 8) | S[0]` (R148). -/
def scratchpadReading (s0 s1 : Byte) : Word :=
  (((s1 &&& 0x0F).setWidth 16) <<< 8) ||| s0.setWidth 16

/-- The scratchpad read (R149): nine bytes, and the reading of the first two. -/
def scratchpadRead (skip readSp : Byte) (s : State) :
    Host.Outcome (State × Option (List Byte × Word)) Fault Refusal :=
  ifPresent s fun t =>
    andThen (runScript (callWrite skip ++ callWrite readSp) t) fun u =>
      andThen (readBytes 9 u) fun r =>
        .next (r.1, (r.2, scratchpadReading (r.2.getD 0 0) (r.2.getD 1 0)))

end Sys2Proof.Machine
end

