-- ==== Sys2Proof/Safety.lean ====
section
/-! DEFINITION. The terms claims are stated in: runs of several cycles, the invariants, and what a refused write is. -/

namespace Sys2Proof.Machine

/-- `k` cycles, stopping at the first that answers no next state. -/
def runCycles : Nat → State → Host.Outcome State Fault Refusal
  | 0, s => .next s
  | k + 1, s => andThen (step s) (runCycles k)

/-- The inputs of a cycle neither reset the block nor break the port's contract (R12, R13). -/
def HostInput.undisturbing (h : HostInput) : Bool := !h.rst && !(h.we && h.re)

/-- The inputs of a cycle are a host read of `idx`, whatever stands on `h_wdata` (R10, R44). -/
def HostInput.reads (h : HostInput) (idx : Index) : Prop := h.rst = false ∧ h.we = false ∧ h.re = true ∧ h.idx = idx

/-- No reset and no malformed stimulus in the next `n` cycles; the host may read and write as it likes. -/
def UndisturbedFor (n : Nat) (s : State) : Prop := ∀ k, k < n → (hostInputAt s k).undisturbing = true

/-- A count inside `seq` is 1 to 65535 (R21, R91). -/
def Segment.counted : Segment → Prop
  | .low n => 1 ≤ n ∧ n ≤ 65535
  | .rel n => 1 ≤ n ∧ n ≤ 65535
  | .sampleP => True
  | .sampleD => True

/-- Every segment of a work list has a legal count. -/
def Counted (w : List Segment) : Prop := ∀ g ∈ w, g.counted

/-- The counts invariant of the sequencer (R84, R91): "`n` is never 0 inside `seq`", "so no count wraps". -/
def State.SeqCounted (s : State) : Prop := Counted s.seq

/-- The longest waveform (R91, R194). -/
def maxWaveCycles : Nat := 1572848

/-- What is left to play never exceeds the longest waveform (R91, R194). -/
def State.SeqBounded (s : State) : Prop := waveCycles s.seq ≤ maxWaveCycles

/-- The waveforms a profile gives: those of the three bus commands (R100, R110, R120), zero segments removed (R84). -/
inductive WaveOf (p : Profile) : List Segment → Prop
  | reset : WaveOf p (normWave (resetWave p))
  | write (b : Byte) : WaveOf p (normWave (writeWave p b))
  | read : WaveOf p (normWave (readWave p))

/-- "An operation in progress sees one profile from its first cycle to its last" (R17): what is still to play is a waveform
of the PRESENT profile with some of its first cycles played. -/
def State.OneProfile (s : State) : Prop :=
  ∃ w k, WaveOf s.prof w ∧ s.seq = Nat.repeat advanceSeq k w

/-- The four causes of a refused write, by the host's inputs of a cycle and `S_k` (R47). E3 is "a word that matches no row
of the opcode table". -/
def RefusedWrite (s : State) : Prop :=
  let h := hostInputAt s 0
  h.rst = false ∧ h.we = true ∧ h.re = false ∧
    ((h.idx = 0x00 ∧ (h.wdata = 0x0001 ∨ h.wdata &&& 0x00FF = 0x0002 ∨ h.wdata = 0x0003) ∧ s.busy = true)
      ∨ (0x10 ≤ h.idx.toNat ∧ h.idx.toNat ≤ 0x19 ∧ s.busy = true)
      ∨ (h.idx = 0x00 ∧ ∀ r ∈ opcodeTable, r.hits h.wdata = false)
      ∨ (0x01 ≤ h.idx.toNat ∧ h.idx.toNat ≤ 0x0F)
      ∨ (0x1A ≤ h.idx.toNat ∧ h.idx.toNat ≤ 0x1F))

/-- The next inputs of the host are exactly these words written to CMD, one a cycle. -/
def State.NextCommands (s : State) (is : List Instr) : Prop :=
  ∃ rest, s.hostInputs = is.map (fun i => hostWrite 0x00 (encode i)) ++ rest

/-- A run in which no host write was lost ends with `cmderr` = 0 (92_eei_decisions.md D13): the safe runs of a host
program. -/
def State.AllWritesHonoured (s : State) : Prop := s.cmderr = false

end Sys2Proof.Machine
end

