-- ==== Sys2Proof/Certificates/Slice0/Obligations.lean ====
section
/-! DEFINITION. What is claimed of the model, for the provers. Each docstring names the rule of spec/ it comes from. -/

open Sys2Proof Sys2Proof.Machine

/-! ### Decode and encode (30_encoding.md) -/

/-- Sanity (derived: R62, R63, V01): words written out from the spec's encodings decode to their commands, and reserved words
are refused. -/
def Obligations.SampleWordsDecode : Prop :=
  decode 0x0000 = .ok .nop ∧ decode 0x0001 = .ok .owReset ∧ decode 0xCC02 = .ok (.owWriteByte 0xCC)
    ∧ decode 0x0003 = .ok .owReadByte ∧ decode 0x0004 = .ok .crcClear
    ∧ decode 0xA505 = .ok (.crcUpdate 0xA5) ∧ decode 0xA206 = .ok (.crcCheck 0xA2)
    ∧ decode 0x0007 = .error .noSuchOpcode ∧ decode 0x0101 = .error .operandNotZero
    ∧ decode 0xCC12 = .error .zeroField

/-- Decode and encode agree, both ways, for every command and every word (derived: R62, R63, R66). -/
def Obligations.DecodeAndEncodeAgree : Prop :=
  (∀ i : Instr, i.wellFormed = true → decode (encode i) = .ok i)
    ∧ (∀ (v : Word) (i : Instr), decode v = .ok i → i.wellFormed = true ∧ encode i = v)

/-- R63: "a word `v` is that command if and only if `v & mask == match`"; "The seven patterns are disjoint." -/
def Obligations.MatchAndMaskSelectTheCommand : Prop :=
  (∀ v : Word, decode v = .ok .nop ↔ v &&& 0xFFFF = 0x0000)
    ∧ (∀ v : Word, decode v = .ok .owReset ↔ v &&& 0xFFFF = 0x0001)
    ∧ (∀ (v : Word) (b : Byte), decode v = .ok (.owWriteByte b) ↔ v &&& 0x00FF = 0x0002 ∧ b = v.extractLsb' 8 8)
    ∧ (∀ v : Word, decode v = .ok .owReadByte ↔ v &&& 0xFFFF = 0x0003)
    ∧ (∀ v : Word, decode v = .ok .crcClear ↔ v &&& 0xFFFF = 0x0004)
    ∧ (∀ (v : Word) (b : Byte), decode v = .ok (.crcUpdate b) ↔ v &&& 0x00FF = 0x0005 ∧ b = v.extractLsb' 8 8)
    ∧ (∀ (v : Word) (b : Byte), decode v = .ok (.crcCheck b) ↔ v &&& 0x00FF = 0x0006 ∧ b = v.extractLsb' 8 8)
    ∧ opcodeTable.Pairwise (fun r q => ∀ v : Word, ¬ (r.hits v = true ∧ q.hits v = true))

/-- R66: the table has exactly the seven rows of R63, and the decoder written from it is the decoder of R62. -/
def Obligations.TableDecoderIsTheDecoder : Prop :=
  opcodeTable.map (fun r => (r.mnemonic, r.pattern, r.mask)) =
      [("NOP", 0x0000#16, 0xFFFF#16), ("OW_RESET", 0x0001#16, 0xFFFF#16), ("OW_WRITE_BYTE", 0x0002#16, 0x00FF#16),
        ("OW_READ_BYTE", 0x0003#16, 0xFFFF#16), ("CRC_CLEAR", 0x0004#16, 0xFFFF#16),
        ("CRC_UPDATE", 0x0005#16, 0x00FF#16), ("CRC_CHECK", 0x0006#16, 0x00FF#16)]
    ∧ ∀ v : Word, tableDecode v = (decode v).toOption

/-- Reserved words (derived: R61, R65): a word is a command exactly when its fields pass the three checks, and a write of a
reserved word has the one effect `cmderr <- 1`, beside the sequencer's own step. -/
def Obligations.ReservedWordsAreRefused : Prop :=
  (∀ v : Word, (∃ i, decode v = .ok i) ↔ (fieldsOf v).wellFormed = true)
    ∧ (∀ v : Word, (fieldsOf v).wellFormed = true ↔
        v.extractLsb' 4 4 = 0#4 ∧
          ((v.extractLsb' 0 4 ∈ [0x0#4, 0x1#4, 0x3#4, 0x4#4] ∧ v.extractLsb' 8 8 = 0#8)
            ∨ v.extractLsb' 0 4 ∈ [0x2#4, 0x5#4, 0x6#4]))
    ∧ ∀ (s : State) (v : Word), hostInputAt s 0 = hostWrite 0x00 v → (fieldsOf v).wellFormed = false →
        step s = .next (endCycle s { s with cmderr := true })

/-! ### The commands, in the cycle of their write -/

/-- R87: NOP does nothing, in any cycle, busy or idle; the step differs only by the sequencer's own. -/
def Obligations.NopDoesNothing : Prop :=
  (∀ v : Word, decode v = .ok .nop ↔ v &&& 0xFFFF = 0x0000)
    ∧ (∀ s : State, exec .nop s = .next s)
    ∧ ∀ s : State, hostInputAt s 0 = hostWrite 0x00 0x0000 → step s = .next (endCycle s s)

/-- OW_RESET accepted while idle (derived: R83, R84, R100): `seq` is the pulse, the delay, the presence sample and the
recovery of the profile of this cycle, zero durations absent; nothing else changes. -/
def Obligations.OwResetLoadsItsWaveform : Prop :=
  ∀ s : State, s.seq = [] →
    exec .owReset s = .next { s with
      seq := [Segment.low s.prof[0].toNat, .rel s.prof[1].toNat, .sampleP, .rel s.prof[2].toNat].filter
        fun g => g ≠ .low 0 ∧ g ≠ .rel 0 }

/-- OW_WRITE_BYTE accepted while idle (derived: R83, R84, R110, R111): eight slots, bit 0 first, LOW then REL with the hold
and the recovery of the bit's value; nothing else changes. -/
def Obligations.OwWriteByteLoadsItsWaveform : Prop :=
  ∀ (s : State) (b : Byte), s.seq = [] →
    exec (.owWriteByte b) s = .next { s with
      seq := ([0, 1, 2, 3, 4, 5, 6, 7].flatMap fun i =>
          if b.getLsbD i = true then [Segment.low s.prof[5].toNat, .rel s.prof[6].toNat]
          else [Segment.low s.prof[3].toNat, .rel s.prof[4].toNat]).filter
        fun g => g ≠ .low 0 ∧ g ≠ .rel 0 }

/-- OW_READ_BYTE accepted while idle (derived: R83, R84, R120, R121): `rx` is cleared and eight read slots are loaded;
nothing else changes. -/
def Obligations.OwReadByteLoadsItsWaveform : Prop :=
  ∀ s : State, s.seq = [] →
    exec .owReadByte s = .next { s with
      rx := 0x00
      seq := ([0, 1, 2, 3, 4, 5, 6, 7].flatMap fun _ =>
          [Segment.low s.prof[7].toNat, .rel s.prof[8].toNat, .sampleD, .rel s.prof[9].toNat]).filter
        fun g => g ≠ .low 0 ∧ g ≠ .rel 0 }

/-- Cause E1 (derived: R47, R64): a bus command while busy sets `cmderr` and does nothing else. -/
def Obligations.BusCommandWhileBusyIsRefused : Prop :=
  ∀ (s : State) (b : Byte) (i : Instr), s.seq ≠ [] → i = .owReset ∨ i = .owWriteByte b ∨ i = .owReadByte →
    exec i s = .next { s with cmderr := true }

/-- R131: CRC_CLEAR, in every state. -/
def Obligations.CrcClearZeroesTheChecksum : Prop :=
  (∀ v : Word, decode v = .ok .crcClear ↔ v &&& 0xFFFF = 0x0004)
    ∧ ∀ s : State, exec .crcClear s = .next { s with crc := 0x00 }

/-- R132: CRC_UPDATE, in every state, for the shift step as the rule writes it. -/
def Obligations.CrcUpdateFoldsOneByte : Prop :=
  (∀ (v : Word) (b : Byte), decode v = .ok (.crcUpdate b) ↔ v &&& 0x00FF = 0x0005 ∧ b = v.extractLsb' 8 8)
    ∧ ∀ sh : Byte → Byte, (∀ c : Byte, sh c = if c.getLsbD 0 = true then (c >>> 1) ^^^ 0x8C else c >>> 1) →
      ∀ (s : State) (b : Byte), exec (.crcUpdate b) s =
        .next { s with crc := sh (sh (sh (sh (sh (sh (sh (sh (s.crc ^^^ b)))))))) }

/-- R133: CRC_CHECK, in every state; a later CRC_CLEAR or CRC_UPDATE leaves the flag as it was. -/
def Obligations.CrcCheckSetsTheMatchFlag : Prop :=
  (∀ (v : Word) (b : Byte), decode v = .ok (.crcCheck b) ↔ v &&& 0x00FF = 0x0006 ∧ b = v.extractLsb' 8 8)
    ∧ (∀ (s : State) (b : Byte), exec (.crcCheck b) s =
        .next { s with crcMatch := if s.crc = b then true else false })
    ∧ ∀ (s t : State) (b : Byte), exec .crcClear s = .next t ∨ exec (.crcUpdate b) s = .next t →
        t.crcMatch = s.crcMatch

/-- Frame of the bus commands (derived: R100, R110, R120, R130): a bus command changes no profile register, no checksum, no
`crc_match`, no `presence`, no input; while idle not `cmderr`, while busy neither `seq` nor `rx`; `rx` only OW_READ_BYTE.
OWM has no memory, so there is no memory to frame. -/
def Obligations.BusCommandFrame : Prop :=
  ∀ (s t : State) (b : Byte) (i : Instr), i = .owReset ∨ i = .owWriteByte b ∨ i = .owReadByte → exec i s = .next t →
    t.prof = s.prof ∧ t.crc = s.crc ∧ t.crcMatch = s.crcMatch ∧ t.presence = s.presence
      ∧ t.hostInputs = s.hostInputs ∧ t.lineInputs = s.lineInputs ∧ t.cycle = s.cycle
      ∧ (s.seq = [] → t.cmderr = s.cmderr)
      ∧ (s.seq ≠ [] → t.seq = s.seq ∧ t.rx = s.rx)
      ∧ (i ≠ .owReadByte → t.rx = s.rx)

/-- Frame of the CRC commands and NOP (derived: R64, R87, R130 to R133): they touch neither the sequencer nor its results nor
the profile nor `cmderr`; CRC_CLEAR and CRC_UPDATE leave `crc_match`, CRC_CHECK leaves `crc`, NOP leaves both. -/
def Obligations.CrcCommandFrame : Prop :=
  ∀ (s t : State) (b : Byte) (i : Instr),
    i = .nop ∨ i = .crcClear ∨ i = .crcUpdate b ∨ i = .crcCheck b → exec i s = .next t →
    t.prof = s.prof ∧ t.seq = s.seq ∧ t.rx = s.rx ∧ t.presence = s.presence ∧ t.cmderr = s.cmderr
      ∧ t.hostInputs = s.hostInputs ∧ t.lineInputs = s.lineInputs ∧ t.cycle = s.cycle
      ∧ (i ≠ .crcCheck b → t.crcMatch = s.crcMatch)
      ∧ (i = .crcCheck b ∨ i = .nop → t.crc = s.crc)

/-! ### One cycle -/

/-- A step runs the decoded command (derived: R42, R60, R62): when the host writes a command's word to CMD, the step is exec
of that command at that state, with the sequencer's own writes and the passing of the cycle added by `endCycle`. -/
def Obligations.StepRunsTheDecodedCommand : Prop :=
  ∀ (s : State) (v : Word) (i : Instr), hostInputAt s 0 = hostWrite 0x00 v → decode v = .ok i →
    step s = match exec i s with
      | .next t => .next (endCycle s t)
      | .fault f => .fault f
      | .refused r => .refused r

/-- What the end of a cycle adds to the host's write (derived: R42, R81, R82): the sequencer's writes computed from `S_k`, and
one cycle's inputs used up (log entries 1, 2). -/
def Obligations.EndCycleAddsTheSequencersWrites : Prop :=
  ∀ (s t : State) (w : List Segment) (n : Nat),
    (s.seq = [] → endCycle s t =
      { t with hostInputs := t.hostInputs.tail, lineInputs := t.lineInputs.tail, cycle := t.cycle + 1 })
    ∧ (s.seq = .low n :: w → endCycle s t =
      { t with seq := if n > 1 then .low (n - 1) :: w else w,
               hostInputs := t.hostInputs.tail, lineInputs := t.lineInputs.tail, cycle := t.cycle + 1 })
    ∧ (s.seq = .rel n :: w → endCycle s t =
      { t with seq := if n > 1 then .rel (n - 1) :: w else w,
               hostInputs := t.hostInputs.tail, lineInputs := t.lineInputs.tail, cycle := t.cycle + 1 })
    ∧ (s.seq = .sampleP :: w → endCycle s t =
      { t with presence := !owIn s, seq := w,
               hostInputs := t.hostInputs.tail, lineInputs := t.lineInputs.tail, cycle := t.cycle + 1 })
    ∧ (s.seq = .sampleD :: w → endCycle s t =
      { t with rx := BitVec.ofBool (owIn s) ++ s.rx.extractLsb' 1 7, seq := w,
               hostInputs := t.hostInputs.tail, lineInputs := t.lineInputs.tail, cycle := t.cycle + 1 })

/-- R81: the sequencer's step, in every cycle without reset and whatever the host does in it. -/
def Obligations.SequencerStepsWhateverTheHostDoes : Prop :=
  ∀ (s u : State) (w : List Segment) (n : Nat), (hostInputAt s 0).rst = false → step s = .next u →
    (s.seq = [] → (hostInputAt s 0).we = false → u = s.popInputs)
    ∧ (s.seq = .low n :: w →
        u.seq = (if n > 1 then .low (n - 1) :: w else w) ∧ u.presence = s.presence ∧ u.rx = s.rx)
    ∧ (s.seq = .rel n :: w →
        u.seq = (if n > 1 then .rel (n - 1) :: w else w) ∧ u.presence = s.presence ∧ u.rx = s.rx)
    ∧ (s.seq = .sampleP :: w →
        u.seq = w ∧ u.presence = (if owIn s = false then true else false) ∧ u.rx = s.rx)
    ∧ (s.seq = .sampleD :: w →
        u.seq = w ∧ u.presence = s.presence ∧ u.rx.getLsbD 7 = owIn s
          ∧ ∀ j, j < 7 → u.rx.getLsbD j = s.rx.getLsbD (j + 1))

/-- R12, R30: a cycle with `rst = 1`, whatever the host and the line do in it. -/
def Obligations.ResetCycleGivesTheResetState : Prop :=
  ∀ s : State, (hostInputAt s 0).rst = true → ((hostInputAt s 0).we = false ∨ (hostInputAt s 0).re = false) →
    (∃ u, step s = .next u ∧ u.prof = Vector.replicate 10 0x0000 ∧ u.rx = 0x00 ∧ u.crc = 0x00 ∧ u.presence = false
      ∧ u.crcMatch = false ∧ u.cmderr = false ∧ u.seq = [] ∧ u.busy = false ∧ owPullLow u = false)
    ∧ ((hostInputAt s 0).re = true → hRdata s = some (readRegister s (hostInputAt s 0).idx))

/-- What the model chose for a reset cycle (derived: R12, R162): reset comes first even when both strobes are 1 (log entry 4),
and the inputs of later cycles and the cycle counter, the model's own, go on (log entry 3). -/
def Obligations.ResetCycleOverridesBothStrobes : Prop :=
  ∀ s : State, (hostInputAt s 0).rst = true → step s = .next { State.reset with
    hostInputs := s.hostInputs.tail, lineInputs := s.lineInputs.tail, cycle := s.cycle + 1 }

/-- Strobes (derived: R13, U6): no strobe is no access; both, in a cycle without reset, is a stimulus the model refuses. That
reset comes first, and that a cycle without a read has no read data, are the model's readings (log entries 4, 5). -/
def Obligations.StrobesOfACycle : Prop :=
  ∀ s : State, (hostInputAt s 0).rst = false →
    ((hostInputAt s 0).we = false → (hostInputAt s 0).re = false → step s = .next (endCycle s s) ∧ hRdata s = none)
    ∧ ((hostInputAt s 0).we = true → (hostInputAt s 0).re = true → step s = .refused .bothStrobes)

/-- R44: what a read of each index returns, and that a read changes no state at any index. -/
def Obligations.HostReadReturnsTheRegister : Prop :=
  ∀ (s : State) (idx : Index), (hostInputAt s 0).reads idx →
    step s = .next (endCycle s s)
    ∧ (idx = 0x01 → hRdata s = some
        ((BitVec.ofBool s.cmderr ++ BitVec.ofBool s.crcMatch ++ BitVec.ofBool s.presence
          ++ BitVec.ofBool (!s.seq.isEmpty)).setWidth 16))
    ∧ (idx = 0x02 → hRdata s = some (s.rx.setWidth 16))
    ∧ (idx = 0x03 → hRdata s = some (s.crc.setWidth 16))
    ∧ (∀ i : Fin 10, idx.toNat = 0x10 + i.val → hRdata s = some s.prof[i])
    ∧ (idx = 0x00 ∨ (0x04 ≤ idx.toNat ∧ idx.toNat ≤ 0x0F) ∨ 0x1A ≤ idx.toNat → hRdata s = some 0x0000)

/-- R27: the bits of STATUS. -/
def Obligations.StatusBits : Prop :=
  ∀ s : State,
    (readRegister s 0x01).getLsbD 0 = s.busy ∧ (readRegister s 0x01).getLsbD 1 = s.presence
      ∧ (readRegister s 0x01).getLsbD 2 = s.crcMatch ∧ (readRegister s 0x01).getLsbD 3 = s.cmderr
      ∧ (∀ j, 4 ≤ j → (readRegister s 0x01).getLsbD j = false)
      ∧ (s.busy = true ↔ s.seq ≠ [])
      ∧ ((hostInputAt s 0).reads 0x01 → step s = .next (endCycle s s))

/-- R45: a host write at every index, with `busy` of `S_k`. -/
def Obligations.HostWriteAtEveryIndex : Prop :=
  ∀ (s : State) (idx : Index) (v : Word), hostInputAt s 0 = hostWrite idx v →
    (idx = 0x00 → ∀ i t, decode v = .ok i → exec i s = .next t → step s = .next (endCycle s t))
    ∧ (idx = 0x00 → ∀ e, decode v = .error e → step s = .next (endCycle s { s with cmderr := true }))
    ∧ (∀ i : Fin 10, idx.toNat = 0x10 + i.val → s.seq = [] →
        step s = .next (endCycle s { s with prof := s.prof.set i v }))
    ∧ (∀ i : Fin 10, idx.toNat = 0x10 + i.val → s.seq ≠ [] →
        step s = .next (endCycle s { s with cmderr := true }))
    ∧ ((0x01 ≤ idx.toNat ∧ idx.toNat ≤ 0x0F) ∨ 0x1A ≤ idx.toNat →
        step s = .next (endCycle s { s with cmderr := true }))

/-- R47: a write is refused in exactly the four cases; a refused write sets `cmderr` and changes nothing else. -/
def Obligations.WritesAreRefusedInExactlyFourCases : Prop :=
  (∀ s : State, RefusedWrite s → step s = .next (endCycle s { s with cmderr := true }))
    ∧ ∀ s u : State, (hostInputAt s 0).rst = false → step s = .next u → ¬ RefusedWrite s → u.cmderr = s.cmderr

/-- R25: `cmderr` is sticky: only reset clears it; and it has no effect on any operation: from states that differ in it alone
the cycle is the same but for it. -/
def Obligations.CmderrIsStickyAndHasNoEffect : Prop :=
  (∀ s u : State, (hostInputAt s 0).rst = false → step s = .next u → s.cmderr = true → u.cmderr = true)
    ∧ (∀ s u : State, (hostInputAt s 0).rst = true → step s = .next u → u.cmderr = false)
    ∧ (∀ s u : State, RefusedWrite s → step s = .next u → u.cmderr = true)
    ∧ (∀ (s u : State) (e : Bool), step s = .next u →
        ∃ e', step { s with cmderr := e } = .next { u with cmderr := e' })
    ∧ ∀ s : State, (readRegister s 0x01).getLsbD 3 = s.cmderr

/-- Who writes the sequencer's results (derived: R19, R23): `presence` only the SAMPLE_P cycle and reset; `rx` only the
SAMPLE_D cycle, an accepted OW_READ_BYTE and reset. -/
def Obligations.OnlySamplesWriteTheResults : Prop :=
  ∀ s u : State, step s = .next u →
    (u.presence ≠ s.presence → (hostInputAt s 0).rst = true ∨ ∃ w, s.seq = .sampleP :: w)
    ∧ (u.rx ≠ s.rx → (hostInputAt s 0).rst = true ∨ (∃ w, s.seq = .sampleD :: w)
        ∨ (s.seq = [] ∧ hostInputAt s 0 = hostWrite 0x00 0x0003))

/-- Who writes the CRC unit's registers (derived: R20, R24, R130): `crc` only CRC_CLEAR, CRC_UPDATE and reset; `crc_match`
only CRC_CHECK and reset. -/
def Obligations.OnlyCrcCommandsWriteTheCrcUnit : Prop :=
  ∀ s u : State, step s = .next u → (hostInputAt s 0).rst = false →
    (u.crc ≠ s.crc → ∃ v, hostInputAt s 0 = hostWrite 0x00 v ∧ (v = 0x0004 ∨ v &&& 0x00FF = 0x0005))
    ∧ (u.crcMatch ≠ s.crcMatch → ∃ v, hostInputAt s 0 = hostWrite 0x00 v ∧ v &&& 0x00FF = 0x0006)

/-- R17: "A host write to `prof[i]` in a cycle where `busy = 1` changes nothing but `cmderr`"; in a cycle that starts busy
only reset changes the profile, and in one that starts idle only reset and a write to a profile index do. -/
def Obligations.ProfileIsWrittenOnlyWhileIdle : Prop :=
  (∀ (s : State) (i : Fin 10) (v : Word), s.busy = true → hostInputAt s 0 = hostWrite (BitVec.ofNat 5 (0x10 + i.val)) v →
      step s = .next (endCycle s { s with cmderr := true }))
    ∧ ∀ s u : State, step s = .next u → (hostInputAt s 0).rst = false →
      u.prof = s.prof ∨ (s.busy = false ∧ ∃ (i : Fin 10) (v : Word),
        hostInputAt s 0 = hostWrite (BitVec.ofNat 5 (0x10 + i.val)) v ∧ u.prof = s.prof.set i v)

/-- A profile write is used by a command of the next cycle and seen by a read of the next cycle (derived: R43). -/
def Obligations.ProfileWriteIsVisibleInTheNextCycle : Prop :=
  ∀ (s : State) (i : Fin 10) (v : Word), s.seq = [] → hostInputAt s 0 = hostWrite (BitVec.ofNat 5 (0x10 + i.val)) v →
    ∃ t, step s = .next t
      ∧ ((hostInputAt s 1).reads (BitVec.ofNat 5 (0x10 + i.val)) → hRdata t = some v)
      ∧ (hostInputAt s 1 = hostWrite 0x00 0x0001 →
          ∃ u, step t = .next u ∧ u.seq = normWave (resetWave (s.prof.set i v)))

/-- No trap and no hang (derived: R88, R160): every cycle answers a next state, but for the stimulus outside the port's
contract (R13, log entry 4). -/
def Obligations.EveryCycleAnswers : Prop :=
  ∀ s : State, (∃ u, step s = .next u) ∨
    ((hostInputAt s 0).rst = false ∧ (hostInputAt s 0).we = true ∧ (hostInputAt s 0).re = true
      ∧ step s = .refused .bothStrobes)

/-! ### The line -/

/-- R14: the pin is 1 exactly while the head of `seq` is a LOW segment, and 0 in all other cycles: idle, REL, both kinds of
sample, reset. -/
def Obligations.PinIsLowExactlyInLowSegments : Prop :=
  (∀ s : State, (owPullLow s = true ↔ ∃ n w, s.seq = .low n :: w)
      ∧ (∀ w n, s.seq = [] ∨ s.seq = .rel n :: w ∨ s.seq = .sampleP :: w ∨ s.seq = .sampleD :: w → owPullLow s = false))
    ∧ owPullLow State.reset = false

/-- R86: the line law, and what a sample sees. -/
def Obligations.LineLaw : Prop :=
  ∀ s : State, (owIn s = true ↔ owPullLow s = false ∧ slaveLowAt s 0 = false)
    ∧ (∀ w, s.seq = .sampleP :: w ∨ s.seq = .sampleD :: w → owIn s = !slaveLowAt s 0)

/-- R15: outside sample cycles the level of the line has no effect on any state: states that differ in the environment's
choices alone (listed or free) step alike. -/
def Obligations.LineIsReadOnlyInSampleCycles : Prop :=
  ∀ (s u : State) (l : List Bool) (c : Nat), (∀ w, s.seq ≠ .sampleP :: w ∧ s.seq ≠ .sampleD :: w) → step s = .next u →
    step { s with lineInputs := l, cycle := c } = .next { u with lineInputs := l.tail, cycle := c + 1 }

/-! ### Invariants -/

/-- R30: the reset state. -/
def Obligations.ResetValues : Prop :=
  (∀ i : Fin 10, State.reset.prof[i] = 0x0000) ∧ State.reset.rx = 0x00 ∧ State.reset.crc = 0x00
    ∧ State.reset.presence = false ∧ State.reset.crcMatch = false ∧ State.reset.cmderr = false
    ∧ State.reset.seq = [] ∧ State.reset.busy = false ∧ owPullLow State.reset = false

/-- The three invariants hold after reset (derived: R30). -/
def Obligations.ResetMeetsTheInvariants : Prop :=
  State.reset.SeqCounted ∧ State.reset.SeqBounded ∧ State.reset.OneProfile

/-- Every step keeps every count in `seq` between 1 and 65535 (derived: R21, R84, R91). -/
def Obligations.StepKeepsSequencerCountsLegal : Prop :=
  ∀ s u : State, s.SeqCounted → step s = .next u → u.SeqCounted

/-- Every step keeps what is left to play within the longest waveform, 1572848 cycles (derived: R91, R194). -/
def Obligations.StepKeepsRemainingCyclesBounded : Prop :=
  ∀ s u : State, s.SeqBounded → step s = .next u → u.SeqBounded

/-- An operation in progress sees one profile (derived: R17, R51): whatever the host does, what is left to play stays what is
left of a waveform of the present profile. -/
def Obligations.StepKeepsOneProfile : Prop :=
  ∀ s u : State, s.OneProfile → step s = .next u → u.OneProfile

/-! ### Waveforms -/

/-- R84: `norm(W)` removes the zero segments and nothing else, and only OW_WRITE_BYTE can have an empty waveform, exactly when
the durations of the bit values that occur are 0; then the command is accepted and the block stays idle. -/
def Obligations.ZeroDurationsAreAbsent : Prop :=
  (∀ w : List Segment, (normWave w).Sublist w ∧ (∀ g ∈ normWave w, g ≠ .low 0 ∧ g ≠ .rel 0)
      ∧ (∀ g : Segment, g ≠ .low 0 → g ≠ .rel 0 → (normWave w).count g = w.count g))
    ∧ (∀ p : Profile, normWave (resetWave p) ≠ [] ∧ normWave (readWave p) ≠ [])
    ∧ (∀ (p : Profile) (b : Byte), normWave (writeWave p b) = [] ↔
        ∀ i, i < 8 → if b.getLsbD i = true then p[5] = 0 ∧ p[6] = 0 else p[3] = 0 ∧ p[4] = 0)
    ∧ (∀ (s : State) (b : Byte), s.seq = [] → normWave (writeWave s.prof b) = [] → exec (.owWriteByte b) s = .next s)

/-- Lengths of the waveforms (derived: R194): the formulas, the largest, and that it is reached. `ones` counts the 1 bits of
the byte. -/
def Obligations.WaveformLengths : Prop :=
  (∀ p : Profile, waveCycles (normWave (resetWave p)) = p[0].toNat + p[1].toNat + 1 + p[2].toNat)
    ∧ (∀ (p : Profile) (b : Byte), let ones := (List.range 8).countP fun i => b.getLsbD i
        waveCycles (normWave (writeWave p b)) =
          ones * (p[5].toNat + p[6].toNat) + (8 - ones) * (p[3].toNat + p[4].toNat))
    ∧ (∀ p : Profile, waveCycles (normWave (readWave p)) = 8 * (p[7].toNat + p[8].toNat + 1 + p[9].toNat))
    ∧ (∀ (p : Profile) (w : List Segment), WaveOf p w → waveCycles w ≤ 1572848)
    ∧ (∃ (p : Profile) (w : List Segment), WaveOf p w ∧ waveCycles w = 1572848)

/-! ### Runs of several cycles -/

/-- Every operation ends (derived: R50, R88): from a state with `D` cycles left to play, whatever the line does and whatever
undisturbed accesses the host makes, `busy` is 1 in each of the next `D` cycles and 0 after them. -/
def Obligations.EveryOperationEndsOnTime : Prop :=
  ∀ s : State, s.SeqCounted → UndisturbedFor (waveCycles s.seq) s →
    (∀ k, k < waveCycles s.seq → ∃ t, runCycles k s = .next t ∧ t.busy = true)
    ∧ ∃ t, runCycles (waveCycles s.seq) s = .next t ∧ t.busy = false

/-- The host cannot move an edge or a sample of a running operation (derived: R81, R92, R124): two hosts that do anything
undisturbing give, up to the end of the operation, the same pin, the same `seq`, the same samples. -/
def Obligations.HostCannotDisturbAnOperation : Prop :=
  ∀ (s : State) (hs : List HostInput) (n : Nat), s.SeqCounted → n ≤ waveCycles s.seq →
    UndisturbedFor n s → UndisturbedFor n { s with hostInputs := hs } →
    ∃ t u, runCycles n s = .next t ∧ runCycles n { s with hostInputs := hs } = .next u
      ∧ t.seq = u.seq ∧ t.rx = u.rx ∧ t.presence = u.presence ∧ t.prof = u.prof ∧ owPullLow t = owPullLow u

/-- R101, R102: the cycles of OW_RESET accepted in cycle 0, and its result: the pin is low in the cycles 1 to H, the sample
is cycle H+I+1 and only its level decides `presence`, `busy` falls in cycle H+I+J+2. -/
def Obligations.ResetPulseAndPresenceCycleByCycle : Prop :=
  ∀ s : State, s.seq = [] → hostInputAt s 0 = hostWrite 0x00 0x0001 →
    let H := s.prof[0].toNat
    let I := s.prof[1].toNat
    let J := s.prof[2].toNat
    UndisturbedFor (H + I + J + 2) s →
    s.busy = false ∧ owPullLow s = false
    ∧ (∀ k, 1 ≤ k → k ≤ H + I + J + 1 → ∃ t, runCycles k s = .next t ∧ t.busy = true
        ∧ owPullLow t = decide (k ≤ H)
        ∧ t.presence = if k ≤ H + I + 1 then s.presence else slaveLowAt s (H + I + 1))
    ∧ ∃ t, runCycles (H + I + J + 2) s = .next t ∧ t.busy = false ∧ owPullLow t = false
        ∧ t.presence = slaveLowAt s (H + I + 1)

/-- The cycles of OW_WRITE_BYTE accepted in cycle 0 (derived: R110, R111, R112): slot `i` starts when the slots of the lower
bits are over, its first `hold` cycles are low and the rest released; after the last slot the block is idle, with `rx` and
`presence` as they were. -/
def Obligations.WriteSlotsCycleByCycle : Prop :=
  ∀ (s : State) (b : Byte), s.seq = [] → hostInputAt s 0 = hostWrite 0x00 (b.setWidth 16 <<< 8 ||| 0x0002) →
    let hold := fun i : Nat => if b.getLsbD i = true then s.prof[5].toNat else s.prof[3].toNat
    let len := fun i : Nat =>
      if b.getLsbD i = true then s.prof[5].toNat + s.prof[6].toNat else s.prof[3].toNat + s.prof[4].toNat
    let start := fun i : Nat => 1 + ((List.range i).map len).sum
    UndisturbedFor (start 8) s →
    (∀ i k, i < 8 → start i ≤ k → k < start i + len i → ∃ t, runCycles k s = .next t ∧ t.busy = true
        ∧ owPullLow t = decide (k < start i + hold i))
    ∧ ∃ t, runCycles (start 8) s = .next t ∧ t.busy = false ∧ t.rx = s.rx ∧ t.presence = s.presence

/-- R121: the cycles of OW_READ_BYTE accepted in cycle 0: slot `i` occupies the cycles 1 + i*L to (i+1)*L, low in its first
T_RDL cycles, and its sample, released, is cycle 1 + i*L + T_RDL + T_RDS; then the block is idle. -/
def Obligations.ReadSlotsCycleByCycle : Prop :=
  ∀ s : State, s.seq = [] → hostInputAt s 0 = hostWrite 0x00 0x0003 →
    let L := s.prof[7].toNat + s.prof[8].toNat + 1 + s.prof[9].toNat
    UndisturbedFor (1 + 8 * L) s →
    (∀ i k, i < 8 → 1 + i * L ≤ k → k < 1 + (i + 1) * L → ∃ t, runCycles k s = .next t ∧ t.busy = true
        ∧ owPullLow t = decide (k < 1 + i * L + s.prof[7].toNat)
        ∧ ((∃ w, t.seq = .sampleD :: w) ↔ k = 1 + i * L + s.prof[7].toNat + s.prof[8].toNat))
    ∧ ∃ t, runCycles (1 + 8 * L) s = .next t ∧ t.busy = false ∧ owPullLow t = false ∧ t.presence = s.presence

/-- R122: the assembly of the byte read: after sample `j`, `rx[7 - j + i]` is the level of slot `i` for `i` up to `j` and the
bits below are 0; at the end of the operation `rx[i]` is the level of slot `i`. -/
def Obligations.ReadByteIsAssembledFirstBitLowest : Prop :=
  ∀ s : State, s.seq = [] → hostInputAt s 0 = hostWrite 0x00 0x0003 →
    let L := s.prof[7].toNat + s.prof[8].toNat + 1 + s.prof[9].toNat
    let sample := fun i : Nat => 1 + i * L + s.prof[7].toNat + s.prof[8].toNat
    UndisturbedFor (1 + 8 * L) s →
    (∀ j, j < 8 → ∃ t, runCycles (sample j + 1) s = .next t
        ∧ (∀ i, i ≤ j → t.rx.getLsbD (7 - j + i) = !slaveLowAt s (sample i))
        ∧ (∀ m, m < 7 - j → t.rx.getLsbD m = false))
    ∧ ∃ t, runCycles (1 + 8 * L) s = .next t ∧ t.busy = false
        ∧ ∀ i, i < 8 → t.rx.getLsbD i = !slaveLowAt s (sample i)

/-- An absent device (derived: R89): if nothing pulls the line low while the operation runs, OW_RESET ends with
`presence` = 0 and OW_READ_BYTE with `rx` = 0xFF. -/
def Obligations.AbsentDeviceReadsAllOnes : Prop :=
  ∀ s : State, s.seq = [] →
    (hostInputAt s 0 = hostWrite 0x00 0x0001 →
      UndisturbedFor (1 + waveCycles (normWave (resetWave s.prof))) s →
      (∀ k, k < 1 + waveCycles (normWave (resetWave s.prof)) → slaveLowAt s k = false) →
      ∃ t, runCycles (1 + waveCycles (normWave (resetWave s.prof))) s = .next t ∧ t.busy = false ∧ t.presence = false)
    ∧ (hostInputAt s 0 = hostWrite 0x00 0x0003 →
      UndisturbedFor (1 + waveCycles (normWave (readWave s.prof))) s →
      (∀ k, k < 1 + waveCycles (normWave (readWave s.prof)) → slaveLowAt s k = false) →
      ∃ t, runCycles (1 + waveCycles (normWave (readWave s.prof))) s = .next t ∧ t.busy = false ∧ t.rx = 0xFF)

/-- The loopback property (derived: R114): an environment that notes the level of the line `S` cycles into each write slot,
with T_W1L <= S < T_W0L and S inside the slot, and presents it again in the sample of the read slot of the same number, makes
`OW_WRITE_BYTE b; OW_READ_BYTE` leave `rx = b`. Nobody else pulls the line during the write. What "S cycles after it fell"
means is the model's reading (log entry 15). -/
def Obligations.LoopbackReproducesTheByte : Prop :=
  ∀ (s : State) (b : Byte) (S : Nat), s.seq = [] → hostInputAt s 0 = hostWrite 0x00 (b.setWidth 16 <<< 8 ||| 0x0002) →
    let len := fun i : Nat =>
      if b.getLsbD i = true then s.prof[5].toNat + s.prof[6].toNat else s.prof[3].toNat + s.prof[4].toNat
    let start := fun i : Nat => 1 + ((List.range i).map len).sum
    let L := s.prof[7].toNat + s.prof[8].toNat + 1 + s.prof[9].toNat
    s.prof[5].toNat ≤ S → S < s.prof[3].toNat → S < s.prof[5].toNat + s.prof[6].toNat →
    UndisturbedFor (start 8 + 1 + 8 * L) s →
    hostInputAt s (start 8) = hostWrite 0x00 0x0003 →
    (∀ k, k < start 8 → slaveLowAt s k = false) →
    (∀ i t, i < 8 → runCycles (start i + S) s = .next t →
      slaveLowAt s (start 8 + 1 + i * L + s.prof[7].toNat + s.prof[8].toNat) = !owIn t) →
    ∃ t, runCycles (start 8 + 1 + 8 * L) s = .next t ∧ t.busy = false ∧ t.rx = b

/-! ### The checksum over sequences (44_crc.md) -/

/-- R134: `CRC_CLEAR` and then one CRC_UPDATE per byte, written in consecutive cycles, busy or idle, leave
`crc = checksum(bytes)`; the empty sequence gives 0x00; nothing but the sequencer's own elements changes beside it. -/
def Obligations.CommandSequenceComputesTheChecksum : Prop :=
  (checksum [] = 0x00 ∧ ∀ (bs : List Byte) (b : Byte), checksum (bs ++ [b]) = crcUpd (checksum bs) b)
    ∧ ∀ (s : State) (bs : List Byte), s.NextCommands (.crcClear :: bs.map .crcUpdate) →
      ∃ t, runCycles (bs.length + 1) s = .next t ∧ t.crc = checksum bs ∧ t.crcMatch = s.crcMatch
        ∧ t.cmderr = s.cmderr ∧ t.prof = s.prof

/-- R135: validation of a device address: `crc_match` afterwards is 1 if and only if the checksum of the first seven bytes
equals the eighth. -/
def Obligations.AddressValidation : Prop :=
  ∀ (s : State) (a0 a1 a2 a3 a4 a5 a6 a7 : Byte),
    s.NextCommands [.crcClear, .crcUpdate a0, .crcUpdate a1, .crcUpdate a2, .crcUpdate a3, .crcUpdate a4, .crcUpdate a5,
      .crcUpdate a6, .crcCheck a7] →
    ∃ t, runCycles 9 s = .next t ∧ (t.crcMatch = true ↔ checksum [a0, a1, a2, a3, a4, a5, a6] = a7)

/-- R136: folding the checksum byte in gives zero, and only that byte does. -/
def Obligations.FoldingTheChecksumInGivesZero : Prop :=
  (∀ c : Byte, crcUpd c c = 0x00)
    ∧ (∀ (bs : List Byte) (x : Byte), checksum (bs ++ [x]) = 0x00 ↔ x = checksum bs)
    ∧ ∀ (s : State) (a : List Byte), a.length = 8 →
      s.NextCommands (.crcClear :: a.map .crcUpdate ++ [.crcCheck 0x00]) →
      ∃ t, runCycles 10 s = .next t ∧ (t.crcMatch = true ↔ checksum (a.take 7) = a.getD 7 0)

/-- R138: every single-bit change of a sequence changes its checksum, with certainty; corruptions of more bits can go
undetected. -/
def Obligations.EverySingleBitCorruptionIsDetected : Prop :=
  (∀ (bs : List Byte) (i j : Nat) (h : i < bs.length), j < 8 →
      checksum (bs.set i (bs[i] ^^^ BitVec.twoPow 8 j)) ≠ checksum bs)
    ∧ ∃ bs cs : List Byte, bs.length = cs.length ∧ bs ≠ cs ∧ checksum bs = checksum cs

/-! ### The host's side -/

/-- `WAIT` (derived: R50, R69): `D` reads of STATUS that return busy and one that returns idle, and nothing of the CRC unit,
the profile or `cmderr` changes. -/
def Obligations.WaitEndsIdle : Prop :=
  ∀ s : State, s.SeqCounted → ∃ t, runStmt .wait s = .next t ∧ t.busy = false
    ∧ t.cycle = s.cycle + waveCycles s.seq + 1
    ∧ t.prof = s.prof ∧ t.crc = s.crc ∧ t.crcMatch = s.crcMatch ∧ t.cmderr = s.cmderr

/-- Boot (derived: R183, R184): from any state, `RESET_PULSE; PROFILE p` leaves the profile `p`, everything else as reset
leaves it, and the block idle. -/
def Obligations.BootConfiguresTheProfile : Prop :=
  ∀ (s : State) (p : Profile), ∃ t, runScript [.resetPulse, .profile p] s = .next t ∧ t.prof = p ∧ t.busy = false
    ∧ t.cmderr = false ∧ t.rx = 0x00 ∧ t.crc = 0x00 ∧ t.presence = false ∧ t.crcMatch = false
    ∧ t.cycle = s.cycle + 11

/-- The `CALL_` forms (derived: R69, R194): from an idle state each runs its command, waits, and ends idle; the result
CALL_RESET reads is the presence sample, the byte CALL_READ reads is the eight sampled levels, first bit lowest; the STATUS
read that first returns idle is the `D + 2`nd cycle (CALL_RESET and CALL_READ read their result in one more). -/
def Obligations.CallFormsReturnTheResults : Prop :=
  ∀ s : State, s.seq = [] →
    let D := fun w : List Segment => waveCycles (normWave w)
    (∃ t, runScript callReset s = .next t ∧ t.busy = false ∧ t.cycle = s.cycle + D (resetWave s.prof) + 3
      ∧ presenceRead t = slaveLowAt s (1 + s.prof[0].toNat + s.prof[1].toNat))
    ∧ (∀ b : Byte, ∃ t, runScript (callWrite b) s = .next t ∧ t.busy = false
      ∧ t.cycle = s.cycle + D (writeWave s.prof b) + 2 ∧ t.rx = s.rx ∧ t.presence = s.presence)
    ∧ (∃ t, runScript callRead s = .next t ∧ t.busy = false ∧ t.cycle = s.cycle + D (readWave s.prof) + 3
      ∧ ∀ i, i < 8 → (readRegister t 0x02).getLsbD i =
          !slaveLowAt s (1 + i * (s.prof[7].toNat + s.prof[8].toNat + 1 + s.prof[9].toNat) + s.prof[7].toNat + s.prof[8].toNat))

/-- A transaction stops after a failed presence detect (derived: R141, R143, R146, R149): if no device answers, the convert,
the address read and the scratchpad read end after CALL_RESET, idle, with nothing sent. -/
def Obligations.TransactionStopsWithoutPresence : Prop :=
  ∀ (s : State) (c d : Byte), s.seq = [] → slaveLowAt s (1 + s.prof[0].toNat + s.prof[1].toNat) = false →
    ∃ t, runScript callReset s = .next t ∧ t.busy = false
      ∧ startConversion c d s = .next (t, none) ∧ addressRead c s = .next (t, none)
      ∧ scratchpadRead c d s = .next (t, none)

/-- The address read with a device present (derived: R146, R135; its steps are the spec's reconstruction, D22): eight bytes,
bit `j` of byte `i` the level of slot `j` of read `i`; `crc` and `crc_match` of their validation; `ok` the STATUS bit 2 read
in the last cycle, one cycle per statement. -/
def Obligations.AddressReadReturnsTheValidatedBytes : Prop :=
  ∀ (s : State) (c : Byte), s.seq = [] → slaveLowAt s (1 + s.prof[0].toNat + s.prof[1].toNat) = true →
    let D := fun w : List Segment => waveCycles (normWave w)
    let first := (D (resetWave s.prof) + 3) + (D (writeWave s.prof c) + 2)
    let read := D (readWave s.prof) + 3
    let L := s.prof[7].toNat + s.prof[8].toNat + 1 + s.prof[9].toNat
    ∃ t bytes ok, addressRead c s = .next (t, some (bytes, ok)) ∧ bytes.length = 8
      ∧ (∀ i j, i < 8 → j < 8 → (bytes.getD i 0).getLsbD j =
          !slaveLowAt s (first + i * read + 1 + j * L + s.prof[7].toNat + s.prof[8].toNat))
      ∧ (ok = true ↔ checksum (bytes.take 7) = bytes.getD 7 0)
      ∧ t.busy = false ∧ t.crc = checksum (bytes.take 7) ∧ t.crcMatch = ok ∧ t.prof = s.prof
      ∧ t.cycle = s.cycle + first + 8 * read + 10

/-- The convert and the scratchpad read with a device present (derived: R143, R149): both end idle, one cycle per statement;
the second returns nine bytes, bit `j` of byte `i` the level of slot `j` of read `i`, and the reading of the first two. -/
def Obligations.ConvertAndScratchpadReadComplete : Prop :=
  ∀ (s : State) (c d : Byte), s.seq = [] → slaveLowAt s (1 + s.prof[0].toNat + s.prof[1].toNat) = true →
    let D := fun w : List Segment => waveCycles (normWave w)
    let first := (D (resetWave s.prof) + 3) + (D (writeWave s.prof c) + 2) + (D (writeWave s.prof d) + 2)
    let read := D (readWave s.prof) + 3
    let L := s.prof[7].toNat + s.prof[8].toNat + 1 + s.prof[9].toNat
    (∃ t, startConversion c d s = .next (t, some ()) ∧ t.busy = false ∧ t.prof = s.prof ∧ t.cycle = s.cycle + first)
    ∧ ∃ t bytes, scratchpadRead c d s =
        .next (t, some (bytes, scratchpadReading (bytes.getD 0 0) (bytes.getD 1 0))) ∧ bytes.length = 9
      ∧ (∀ i j, i < 9 → j < 8 → (bytes.getD i 0).getLsbD j =
          !slaveLowAt s (first + i * read + 1 + j * L + s.prof[7].toNat + s.prof[8].toNat))
      ∧ t.busy = false ∧ t.prof = s.prof ∧ t.cycle = s.cycle + first + 9 * read

/-- The scratchpad reading (derived: R148): byte 0 is the low byte, the upper nibble of byte 1 is dropped, and the value is
0 to 4095. -/
def Obligations.ScratchpadReadingIsTwelveBits : Prop :=
  ∀ s0 s1 : Byte, (scratchpadReading s0 s1).toNat = (s1.toNat % 16) * 256 + s0.toNat
    ∧ (scratchpadReading s0 s1).toNat ≤ 4095
end

