-- ==== Sys2Proof/Laws/Crc.lean ====
section
/-! SUPPORT. The shift step of the checksum can be undone and fixes 0 (44_crc.md R136). -/

namespace Sys2Proof.Machine

@[simp] theorem crcShift_zero : crcShift 0 = 0 := by decide

/-- The step undone: the top bit of its result is the bit that was shifted out, since 0x8C has its top bit set. -/
def crcUnshift (c : Byte) : Byte :=
  if c.getLsbD 7 then ((c ^^^ Config.poly) <<< 1) ||| 1 else c <<< 1

theorem crcUnshift_crcShift : ∀ a : Byte, crcUnshift (crcShift a) = a := by decide

theorem crcShift_injective {a b : Byte} (h : crcShift a = crcShift b) : a = b := by
  rw [← crcUnshift_crcShift a, h, crcUnshift_crcShift]

end Sys2Proof.Machine
end

