-- ==== Sys2Proof/Laws/Decode.lean ====
section
/-! SUPPORT. The fields of an encoded word, and how a word with a zero field is put together again. -/

namespace Sys2Proof

@[simp] theorem opcodeOf_commandWord (b : Byte) (op : BitVec 4) : opcodeOf (commandWord b op) = op := by
  unfold opcodeOf commandWord
  ext i hi
  simp [show i < 8 by omega, show i < 16 by omega, BitVec.getLsbD_eq_getElem hi]

@[simp] theorem zeroOf_commandWord (b : Byte) (op : BitVec 4) : zeroOf (commandWord b op) = 0 := by
  unfold zeroOf commandWord
  ext i hi
  simp [show 4 + i < 8 by omega, show 4 + i < 16 by omega]

@[simp] theorem imm8Of_commandWord (b : Byte) (op : BitVec 4) : imm8Of (commandWord b op) = b := by
  unfold imm8Of commandWord
  ext i hi
  simp [show 8 + i < 16 by omega, BitVec.getLsbD_of_ge op (8 + i) (by omega), BitVec.getLsbD_eq_getElem hi]

/-- A word whose `zero` field is 0 is the command word of its operand and opcode. -/
theorem commandWord_fields {v : Word} (h : zeroOf v = 0) : commandWord (imm8Of v) (opcodeOf v) = v := by
  have hz : ∀ i, i < 4 → v.getLsbD (4 + i) = false := fun i hi => by
    have := congrArg (·.getLsbD i) h
    simpa [zeroOf, hi] using this
  unfold commandWord imm8Of opcodeOf
  ext i hi
  by_cases h8 : i < 8
  · by_cases h4 : i < 4
    · simp [h8, h4, hi]
    · have := hz (i - 4) (by omega)
      rw [show 4 + (i - 4) = i by omega, BitVec.getLsbD_eq_getElem hi] at this
      simp [h8, h4, hi, this]
  · simp [h8, hi, show i - 8 < 8 by omega, show 8 + (i - 8) = i by omega, show ¬ i < 4 by omega]

/-- The low byte of a word is its `zero` and `opcode` fields. -/

theorem low_byte_mask (v : Word) (op : BitVec 4) :
    v &&& 0x00FF = op.setWidth 16 ↔ zeroOf v = 0 ∧ opcodeOf v = op := by
  have hm : ∀ i (hi : i < 16), (255#16)[i] = decide (i < 8) := by decide
  constructor
  · intro h
    have hb : ∀ i, i < 16 → (v.getLsbD i && decide (i < 8)) = op.getLsbD i := fun i hi => by
      have := congrArg (·.getLsbD i) h
      simpa [hm i hi, BitVec.getLsbD_eq_getElem hi, hi] using this
    constructor
    · unfold zeroOf
      ext i hi
      have := hb (4 + i) (by omega)
      simpa [show 4 + i < 8 by omega, BitVec.getLsbD_of_ge op (4 + i) (by omega)] using this
    · unfold opcodeOf
      ext i hi
      have := hb i (by omega)
      simpa [show i < 8 by omega, BitVec.getLsbD_eq_getElem hi] using this
  · rintro ⟨hz, ho⟩
    have hz' : ∀ i, i < 4 → v.getLsbD (4 + i) = false := fun i hi => by
      have := congrArg (·.getLsbD i) hz
      simpa [zeroOf, hi] using this
    subst ho
    ext i hi
    have h1 := hm i hi
    unfold opcodeOf
    by_cases h4 : i < 4
    · simp [h1, h4, show i < 8 by omega, BitVec.getLsbD_eq_getElem hi]
    · by_cases h8 : i < 8
      · have := hz' (i - 4) (by omega)
        rw [show 4 + (i - 4) = i by omega, BitVec.getLsbD_eq_getElem hi] at this
        simp [h4, this]
      · simp [h1, h4, h8]

theorem whole_word_mask (v : Word) : v &&& 0xFFFF = v := by
  show v &&& BitVec.allOnes 16 = v
  exact BitVec.and_allOnes

/-- A row that hits a word says which command's word it is. -/
theorem encode_of_hits {r : OpcodeRow} (hr : r ∈ opcodeTable) {v : Word} (h : r.hits v = true) :
    v = encode (r.command (imm8Of v)) := by
  have hI : ∀ op : BitVec 4, v &&& 255#16 = op.setWidth 16 → v = commandWord (imm8Of v) op := fun op ho => by
    obtain ⟨hz, ho⟩ := (low_byte_mask v op).1 ho
    rw [← ho, commandWord_fields hz]
  have hN := whole_word_mask v
  simp only [opcodeTable, List.mem_cons, List.not_mem_nil, or_false] at hr
  rcases hr with rfl | rfl | rfl | rfl | rfl | rfl | rfl <;>
    simp only [OpcodeRow.hits, beq_iff_eq] at h
  · rw [hN] at h; rw [h]; rfl
  · rw [hN] at h; rw [h]; rfl
  · exact hI 2 h
  · rw [hN] at h; rw [h]; rfl
  · rw [hN] at h; rw [h]; rfl
  · exact hI 5 h
  · exact hI 6 h

/-- Every command's word is hit by a row. -/
theorem hits_of_encode (i : Instr) : ∃ r ∈ opcodeTable, r.hits (encode i) = true := by
  have hI : ∀ (b : Byte) (op : BitVec 4), commandWord b op &&& 255#16 = op.setWidth 16 := fun b op =>
    (low_byte_mask _ op).2 ⟨by simp, by simp⟩
  simp only [opcodeTable, List.exists_mem_cons_iff]
  cases i with
  | nop => exact .inl (by decide)
  | owReset => exact .inr (.inl (by decide))
  | owWriteByte b => exact .inr (.inr (.inl (beq_iff_eq.2 (hI b 2))))
  | owReadByte => exact .inr (.inr (.inr (.inl (by decide))))
  | crcClear => exact .inr (.inr (.inr (.inr (.inl (by decide)))))
  | crcUpdate b => exact .inr (.inr (.inr (.inr (.inr (.inl (beq_iff_eq.2 (hI b 5)))))))
  | crcCheck b => exact .inr (.inr (.inr (.inr (.inr (.inr (.inl (beq_iff_eq.2 (hI b 6))))))))

end Sys2Proof
end

