-- ==== Sys2Proof/Laws/State.lean ====
section
/-! SUPPORT. One lemma per field per named update of State, each by rfl, so that no proof unfolds a record update. -/

namespace Sys2Proof.Machine.State

variable (s : State)

@[simp] theorem setProf_prof (i : Fin 10) (v : Word) : (s.setProf i v).prof = s.prof.set i v := rfl
@[simp] theorem setProf_rx (i : Fin 10) (v : Word) : (s.setProf i v).rx = s.rx := rfl
@[simp] theorem setProf_crc (i : Fin 10) (v : Word) : (s.setProf i v).crc = s.crc := rfl
@[simp] theorem setProf_presence (i : Fin 10) (v : Word) : (s.setProf i v).presence = s.presence := rfl
@[simp] theorem setProf_crcMatch (i : Fin 10) (v : Word) : (s.setProf i v).crcMatch = s.crcMatch := rfl
@[simp] theorem setProf_cmderr (i : Fin 10) (v : Word) : (s.setProf i v).cmderr = s.cmderr := rfl
@[simp] theorem setProf_seq (i : Fin 10) (v : Word) : (s.setProf i v).seq = s.seq := rfl
@[simp] theorem setProf_hostInputs (i : Fin 10) (v : Word) : (s.setProf i v).hostInputs = s.hostInputs := rfl
@[simp] theorem setProf_lineInputs (i : Fin 10) (v : Word) : (s.setProf i v).lineInputs = s.lineInputs := rfl
@[simp] theorem setProf_cycle (i : Fin 10) (v : Word) : (s.setProf i v).cycle = s.cycle := rfl

@[simp] theorem setRx_prof (b : Byte) : (s.setRx b).prof = s.prof := rfl
@[simp] theorem setRx_rx (b : Byte) : (s.setRx b).rx = b := rfl
@[simp] theorem setRx_crc (b : Byte) : (s.setRx b).crc = s.crc := rfl
@[simp] theorem setRx_presence (b : Byte) : (s.setRx b).presence = s.presence := rfl
@[simp] theorem setRx_crcMatch (b : Byte) : (s.setRx b).crcMatch = s.crcMatch := rfl
@[simp] theorem setRx_cmderr (b : Byte) : (s.setRx b).cmderr = s.cmderr := rfl
@[simp] theorem setRx_seq (b : Byte) : (s.setRx b).seq = s.seq := rfl
@[simp] theorem setRx_hostInputs (b : Byte) : (s.setRx b).hostInputs = s.hostInputs := rfl
@[simp] theorem setRx_lineInputs (b : Byte) : (s.setRx b).lineInputs = s.lineInputs := rfl
@[simp] theorem setRx_cycle (b : Byte) : (s.setRx b).cycle = s.cycle := rfl

@[simp] theorem setCrc_prof (b : Byte) : (s.setCrc b).prof = s.prof := rfl
@[simp] theorem setCrc_rx (b : Byte) : (s.setCrc b).rx = s.rx := rfl
@[simp] theorem setCrc_crc (b : Byte) : (s.setCrc b).crc = b := rfl
@[simp] theorem setCrc_presence (b : Byte) : (s.setCrc b).presence = s.presence := rfl
@[simp] theorem setCrc_crcMatch (b : Byte) : (s.setCrc b).crcMatch = s.crcMatch := rfl
@[simp] theorem setCrc_cmderr (b : Byte) : (s.setCrc b).cmderr = s.cmderr := rfl
@[simp] theorem setCrc_seq (b : Byte) : (s.setCrc b).seq = s.seq := rfl
@[simp] theorem setCrc_hostInputs (b : Byte) : (s.setCrc b).hostInputs = s.hostInputs := rfl
@[simp] theorem setCrc_lineInputs (b : Byte) : (s.setCrc b).lineInputs = s.lineInputs := rfl
@[simp] theorem setCrc_cycle (b : Byte) : (s.setCrc b).cycle = s.cycle := rfl

@[simp] theorem setPresence_prof (b : Bool) : (s.setPresence b).prof = s.prof := rfl
@[simp] theorem setPresence_rx (b : Bool) : (s.setPresence b).rx = s.rx := rfl
@[simp] theorem setPresence_crc (b : Bool) : (s.setPresence b).crc = s.crc := rfl
@[simp] theorem setPresence_presence (b : Bool) : (s.setPresence b).presence = b := rfl
@[simp] theorem setPresence_crcMatch (b : Bool) : (s.setPresence b).crcMatch = s.crcMatch := rfl
@[simp] theorem setPresence_cmderr (b : Bool) : (s.setPresence b).cmderr = s.cmderr := rfl
@[simp] theorem setPresence_seq (b : Bool) : (s.setPresence b).seq = s.seq := rfl
@[simp] theorem setPresence_hostInputs (b : Bool) : (s.setPresence b).hostInputs = s.hostInputs := rfl
@[simp] theorem setPresence_lineInputs (b : Bool) : (s.setPresence b).lineInputs = s.lineInputs := rfl
@[simp] theorem setPresence_cycle (b : Bool) : (s.setPresence b).cycle = s.cycle := rfl

@[simp] theorem setCrcMatch_prof (b : Bool) : (s.setCrcMatch b).prof = s.prof := rfl
@[simp] theorem setCrcMatch_rx (b : Bool) : (s.setCrcMatch b).rx = s.rx := rfl
@[simp] theorem setCrcMatch_crc (b : Bool) : (s.setCrcMatch b).crc = s.crc := rfl
@[simp] theorem setCrcMatch_presence (b : Bool) : (s.setCrcMatch b).presence = s.presence := rfl
@[simp] theorem setCrcMatch_crcMatch (b : Bool) : (s.setCrcMatch b).crcMatch = b := rfl
@[simp] theorem setCrcMatch_cmderr (b : Bool) : (s.setCrcMatch b).cmderr = s.cmderr := rfl
@[simp] theorem setCrcMatch_seq (b : Bool) : (s.setCrcMatch b).seq = s.seq := rfl
@[simp] theorem setCrcMatch_hostInputs (b : Bool) : (s.setCrcMatch b).hostInputs = s.hostInputs := rfl
@[simp] theorem setCrcMatch_lineInputs (b : Bool) : (s.setCrcMatch b).lineInputs = s.lineInputs := rfl
@[simp] theorem setCrcMatch_cycle (b : Bool) : (s.setCrcMatch b).cycle = s.cycle := rfl

@[simp] theorem setCmderr_prof (b : Bool) : (s.setCmderr b).prof = s.prof := rfl
@[simp] theorem setCmderr_rx (b : Bool) : (s.setCmderr b).rx = s.rx := rfl
@[simp] theorem setCmderr_crc (b : Bool) : (s.setCmderr b).crc = s.crc := rfl
@[simp] theorem setCmderr_presence (b : Bool) : (s.setCmderr b).presence = s.presence := rfl
@[simp] theorem setCmderr_crcMatch (b : Bool) : (s.setCmderr b).crcMatch = s.crcMatch := rfl
@[simp] theorem setCmderr_cmderr (b : Bool) : (s.setCmderr b).cmderr = b := rfl
@[simp] theorem setCmderr_seq (b : Bool) : (s.setCmderr b).seq = s.seq := rfl
@[simp] theorem setCmderr_hostInputs (b : Bool) : (s.setCmderr b).hostInputs = s.hostInputs := rfl
@[simp] theorem setCmderr_lineInputs (b : Bool) : (s.setCmderr b).lineInputs = s.lineInputs := rfl
@[simp] theorem setCmderr_cycle (b : Bool) : (s.setCmderr b).cycle = s.cycle := rfl

@[simp] theorem setSeq_prof (w : List Segment) : (s.setSeq w).prof = s.prof := rfl
@[simp] theorem setSeq_rx (w : List Segment) : (s.setSeq w).rx = s.rx := rfl
@[simp] theorem setSeq_crc (w : List Segment) : (s.setSeq w).crc = s.crc := rfl
@[simp] theorem setSeq_presence (w : List Segment) : (s.setSeq w).presence = s.presence := rfl
@[simp] theorem setSeq_crcMatch (w : List Segment) : (s.setSeq w).crcMatch = s.crcMatch := rfl
@[simp] theorem setSeq_cmderr (w : List Segment) : (s.setSeq w).cmderr = s.cmderr := rfl
@[simp] theorem setSeq_seq (w : List Segment) : (s.setSeq w).seq = w := rfl
@[simp] theorem setSeq_hostInputs (w : List Segment) : (s.setSeq w).hostInputs = s.hostInputs := rfl
@[simp] theorem setSeq_lineInputs (w : List Segment) : (s.setSeq w).lineInputs = s.lineInputs := rfl
@[simp] theorem setSeq_cycle (w : List Segment) : (s.setSeq w).cycle = s.cycle := rfl

@[simp] theorem popInputs_prof : s.popInputs.prof = s.prof := rfl
@[simp] theorem popInputs_rx : s.popInputs.rx = s.rx := rfl
@[simp] theorem popInputs_crc : s.popInputs.crc = s.crc := rfl
@[simp] theorem popInputs_presence : s.popInputs.presence = s.presence := rfl
@[simp] theorem popInputs_crcMatch : s.popInputs.crcMatch = s.crcMatch := rfl
@[simp] theorem popInputs_cmderr : s.popInputs.cmderr = s.cmderr := rfl
@[simp] theorem popInputs_seq : s.popInputs.seq = s.seq := rfl
@[simp] theorem popInputs_hostInputs : s.popInputs.hostInputs = s.hostInputs.tail := rfl
@[simp] theorem popInputs_lineInputs : s.popInputs.lineInputs = s.lineInputs.tail := rfl
@[simp] theorem popInputs_cycle : s.popInputs.cycle = s.cycle + 1 := rfl

@[simp] theorem resetCycle_prof : (resetCycle s).prof = Vector.replicate 10 0 := rfl
@[simp] theorem resetCycle_rx : (resetCycle s).rx = 0 := rfl
@[simp] theorem resetCycle_crc : (resetCycle s).crc = 0 := rfl
@[simp] theorem resetCycle_presence : (resetCycle s).presence = false := rfl
@[simp] theorem resetCycle_crcMatch : (resetCycle s).crcMatch = false := rfl
@[simp] theorem resetCycle_cmderr : (resetCycle s).cmderr = false := rfl
@[simp] theorem resetCycle_seq : (resetCycle s).seq = [] := rfl
@[simp] theorem resetCycle_hostInputs : (resetCycle s).hostInputs = s.hostInputs.tail := rfl
@[simp] theorem resetCycle_lineInputs : (resetCycle s).lineInputs = s.lineInputs.tail := rfl
@[simp] theorem resetCycle_cycle : (resetCycle s).cycle = s.cycle + 1 := rfl

end Sys2Proof.Machine.State
end

