-- ==== Sys2Proof/Laws/Ops.lean ====
section
/-! SUPPORT. The shared operations: what each can do, so that no later proof unfolds one. -/

namespace Sys2Proof.Machine

/-! ### Flags and the bus command -/

theorem State.busy_eq_true {s : State} : s.busy = true ↔ s.seq ≠ [] := by
  cases h : s.seq <;> simp [State.busy, h]

theorem State.busy_eq_false {s : State} : s.busy = false ↔ s.seq = [] := by
  cases h : s.seq <;> simp [State.busy, h]

theorem busCommand_idle (f : State → State) {s : State} (h : s.seq = []) : busCommand f s = f s := by
  simp [busCommand, State.busy_eq_false.2 h]

theorem busCommand_busy (f : State → State) {s : State} (h : s.seq ≠ []) : busCommand f s = refuseWrite s := by
  simp [busCommand, State.busy_eq_true.2 h]

/-! ### The line -/

theorem owIn_of_not_low {s : State} (h : pullsLow s.seq = false) : owIn s = !slaveLowAt s 0 := by
  simp [owIn, owPullLow, lineLevel, h]

/-! ### The end of a cycle -/

@[simp] theorem sequencerWrites_idle {s t : State} (h : s.seq = []) : sequencerWrites s t = t := by
  simp [sequencerWrites, h]

theorem endCycle_idle {s t : State} (h : s.seq = []) : endCycle s t = t.popInputs := by
  simp [endCycle, h]

theorem endCycle_seq_busy {s : State} (t : State) (h : s.seq ≠ []) : (endCycle s t).seq = advanceSeq s.seq := by
  unfold endCycle sequencerWrites
  split <;> simp_all

@[simp] theorem endCycle_prof (s t : State) : (endCycle s t).prof = t.prof := by
  unfold endCycle sequencerWrites; split <;> rfl

@[simp] theorem endCycle_crc (s t : State) : (endCycle s t).crc = t.crc := by
  unfold endCycle sequencerWrites; split <;> rfl

@[simp] theorem endCycle_crcMatch (s t : State) : (endCycle s t).crcMatch = t.crcMatch := by
  unfold endCycle sequencerWrites; split <;> rfl

@[simp] theorem endCycle_cmderr (s t : State) : (endCycle s t).cmderr = t.cmderr := by
  unfold endCycle sequencerWrites; split <;> rfl

@[simp] theorem endCycle_hostInputs (s t : State) : (endCycle s t).hostInputs = t.hostInputs.tail := by
  unfold endCycle sequencerWrites; split <;> rfl

@[simp] theorem endCycle_lineInputs (s t : State) : (endCycle s t).lineInputs = t.lineInputs.tail := by
  unfold endCycle sequencerWrites; split <;> rfl

@[simp] theorem endCycle_cycle (s t : State) : (endCycle s t).cycle = t.cycle + 1 := by
  unfold endCycle sequencerWrites; split <;> rfl

/-- What the sequencer writes to `rx` (R81). -/
def nextRx (w : List Segment) (level : Bool) (rx : Byte) : Byte :=
  match w with
  | .sampleD :: _ => shiftIn level rx
  | _ => rx

/-- What the sequencer writes to `presence` (R81). -/
def nextPresence (w : List Segment) (level : Bool) (p : Bool) : Bool :=
  match w with
  | .sampleP :: _ => presenceOf level
  | _ => p

theorem endCycle_rx {s t : State} (h : t.rx = s.rx) : (endCycle s t).rx = nextRx s.seq (owIn s) s.rx := by
  unfold endCycle sequencerWrites nextRx
  split <;> simp_all

theorem endCycle_presence {s t : State} (h : t.presence = s.presence) :
    (endCycle s t).presence = nextPresence s.seq (owIn s) s.presence := by
  unfold endCycle sequencerWrites nextPresence
  split <;> simp_all

theorem nextRx_slave (s : State) (r : Byte) : nextRx s.seq (owIn s) r = nextRx s.seq (!slaveLowAt s 0) r := by
  unfold nextRx; split
  · next h => rw [owIn_of_not_low (by rw [h]; rfl)]
  · rfl

theorem nextPresence_slave (s : State) (r : Bool) :
    nextPresence s.seq (owIn s) r = nextPresence s.seq (!slaveLowAt s 0) r := by
  unfold nextPresence; split
  · next h => rw [owIn_of_not_low (by rw [h]; rfl)]
  · rfl

theorem shiftIn_top (l : Bool) (rx : Byte) : (shiftIn l rx).getLsbD 7 = l := by
  show BitVec.getLsbD (BitVec.ofBool l ++ rx.extractLsb' 1 7) _ = _
  rw [BitVec.getLsbD_append]; simp

theorem shiftIn_low (l : Bool) (rx : Byte) {j : Nat} (h : j < 7) : (shiftIn l rx).getLsbD j = rx.getLsbD (j + 1) := by
  show BitVec.getLsbD (BitVec.ofBool l ++ rx.extractLsb' 1 7) _ = _
  rw [BitVec.getLsbD_append]; simp [h, Nat.add_comm]

/-! ### The port -/

theorem profileIndex_some {idx : Index} {i : Fin 10} : profileIndex idx = some i ↔ idx.toNat = 0x10 + i.val := by
  have hi := i.isLt
  unfold profileIndex
  split
  · rw [Option.some.injEq, Fin.ext_iff]; simp only; omega
  · simp; omega

theorem profileIndex_none {idx : Index} : profileIndex idx = none ↔ idx.toNat < 0x10 ∨ 0x19 < idx.toNat := by
  unfold profileIndex
  split <;> simp <;> omega

theorem writeRegister_idle {s : State} {idx : Index} {i : Fin 10} (v : Word) (hi : idx.toNat = 0x10 + i.val)
    (h : s.seq = []) : writeRegister idx v s = s.setProf i v := by
  simp [writeRegister, profileIndex_some.2 hi, State.busy_eq_false.2 h]

theorem writeRegister_busy {s : State} (idx : Index) (v : Word)
    (h : s.seq ≠ []) : writeRegister idx v s = refuseWrite s := by
  unfold writeRegister; split <;> simp [State.busy_eq_true.2 h]

theorem writeRegister_readOnly {s : State} {idx : Index} (v : Word)
    (h : idx.toNat < 0x10 ∨ 0x19 < idx.toNat) : writeRegister idx v s = refuseWrite s := by
  simp [writeRegister, profileIndex_none.2 h]

theorem hostAction_reset {h : HostInput} (hr : h.rst = true) : hostAction h = .reset := by simp [hostAction, hr]

theorem hostAction_malformed {h : HostInput} (hr : h.rst = false) (hw : h.we = true) (he : h.re = true) :
    hostAction h = .malformed := by simp [hostAction, hr, hw, he]

theorem hostAction_quiet {h : HostInput} (hr : h.rst = false) (hw : h.we = false) : hostAction h = .quiet := by
  simp [hostAction, hr, hw]

theorem hostInputAt_of_tail {s t : State} (h : t.hostInputs = s.hostInputs.tail) (k : Nat) :
    hostInputAt t k = hostInputAt s (k + 1) := by
  simp [hostInputAt, h]

theorem slaveLowAt_of_tail {s t : State} (h : t.lineInputs = s.lineInputs.tail) (hc : t.cycle = s.cycle + 1) (k : Nat) :
    slaveLowAt t k = slaveLowAt s (k + 1) := by
  simp [slaveLowAt, h, hc, Nat.add_assoc, Nat.add_comm 1 k]

end Sys2Proof.Machine
end

