-- ==== Sys2Proof/Laws/PerInstr.lean ====
section
/-! SUPPORT. Statements about every instruction as syntax, one lemma per constructor. -/

namespace Sys2Proof.Laws.EncodedFields

/-- The fields of the word a command is encoded to pass the three checks (30_encoding.md R61, R65). -/
def Statement (i : Instr) : Prop := (fieldsOf (encode i)).wellFormed = true

/-- A command word whose opcode and operand pass the checks is well formed. -/
theorem of_commandWord {b : Byte} {op : BitVec 4} (h : ({ imm8 := b, zero := 0, opcode := op } : Fields).wellFormed = true) :
    (fieldsOf (commandWord b op)).wellFormed = true := by
  simpa [fieldsOf] using h

theorem nop : Statement .nop := of_commandWord (by decide)
theorem owReset : Statement .owReset := of_commandWord (by decide)
theorem owWriteByte (imm8 : Byte) : Statement (.owWriteByte imm8) := of_commandWord (b := imm8) (op := 0x2) rfl
theorem owReadByte : Statement .owReadByte := of_commandWord (by decide)
theorem crcClear : Statement .crcClear := of_commandWord (by decide)
theorem crcUpdate (imm8 : Byte) : Statement (.crcUpdate imm8) := of_commandWord (b := imm8) (op := 0x5) rfl
theorem crcCheck (imm8 : Byte) : Statement (.crcCheck imm8) := of_commandWord (b := imm8) (op := 0x6) rfl

end Sys2Proof.Laws.EncodedFields
end

