-- ==== Sys2Proof/Laws/Step.lean ====
section
/-! SUPPORT. What one step can do, said once: the meanings in terms of the named updates, the four kinds of cycle, and the
inversion of a step that answers a next state. -/

namespace Sys2Proof.Machine

/-! ### The meanings -/

@[simp] theorem exec_nop (s : State) : exec .nop s = .next s := rfl
@[simp] theorem exec_owReset (s : State) :
    exec .owReset s = .next (busCommand (fun s => loadWave (resetWave s.prof) s) s) := rfl
@[simp] theorem exec_owWriteByte (b : Byte) (s : State) :
    exec (.owWriteByte b) s = .next (busCommand (fun s => loadWave (writeWave s.prof b) s) s) := rfl
@[simp] theorem exec_owReadByte (s : State) :
    exec .owReadByte s = .next (busCommand (fun s => loadWave (readWave s.prof) (s.setRx 0x00)) s) := rfl
@[simp] theorem exec_crcClear (s : State) : exec .crcClear s = .next (s.setCrc 0x00) := rfl
@[simp] theorem exec_crcUpdate (b : Byte) (s : State) :
    exec (.crcUpdate b) s = .next (s.setCrc (crcUpd s.crc b)) := rfl
@[simp] theorem exec_crcCheck (b : Byte) (s : State) :
    exec (.crcCheck b) s = .next (s.setCrcMatch (crcMatchOf s.crc b)) := rfl

theorem exec_answers (i : Instr) (s : State) : ∃ t, exec i s = .next t := by
  cases i <;> exact ⟨_, rfl⟩

/-! ### The kinds of cycle -/

@[simp] theorem hostAction_read (idx : Index) : hostAction (hostRead idx) = .quiet := rfl
@[simp] theorem hostAction_noAccess : hostAction noAccess = .quiet := rfl
@[simp] theorem hostAction_command (v : Word) : hostAction (hostWrite 0#5 v) = .command v := rfl

theorem hostAction_write {idx : Index} (h : idx ≠ 0) (v : Word) : hostAction (hostWrite idx v) = .write idx v := by
  have h' : idx ≠ 0#5 := h
  simp [hostAction, hostWrite, h']

/-- The inputs of a cycle, sorted: reset, malformed, quiet, or a write. -/
theorem hostInput_cases (h : HostInput) :
    h.rst = true ∨ (h.rst = false ∧ h.we = true ∧ h.re = true) ∨ (h.rst = false ∧ h.we = false)
      ∨ h = hostWrite h.idx h.wdata := by
  rcases h with ⟨rst, we, re, idx, wd⟩
  cases rst <;> cases we <;> cases re <;> simp [hostWrite]

theorem step_quiet {s : State} (hr : (hostInputAt s 0).rst = false) (hw : (hostInputAt s 0).we = false) :
    step s = .next (endCycle s s) := by
  simp [step, hostAction_quiet hr hw]

theorem step_reset {s : State} (hr : (hostInputAt s 0).rst = true) : step s = .next (resetCycle s) := by
  simp [step, hostAction_reset hr]

theorem step_malformed {s : State} (hr : (hostInputAt s 0).rst = false) (hw : (hostInputAt s 0).we = true)
    (he : (hostInputAt s 0).re = true) : step s = .refused .bothStrobes := by
  simp [step, hostAction_malformed hr hw he]

theorem step_command {s t : State} {v : Word} {i : Instr} (h : hostInputAt s 0 = hostWrite 0x00 v)
    (hd : decode v = .ok i) (he : exec i s = .next t) : step s = .next (endCycle s t) := by
  simp [step, h, hd, he]

theorem step_reserved {s : State} {v : Word} {e : Reserved} (h : hostInputAt s 0 = hostWrite 0x00 v)
    (hd : decode v = .error e) : step s = .next (endCycle s (refuseWrite s)) := by
  simp [step, h, hd]

theorem step_write {s : State} {idx : Index} {v : Word} (h : hostInputAt s 0 = hostWrite idx v) (hi : idx ≠ 0) :
    step s = .next (endCycle s (writeRegister idx v s)) := by
  simp only [step, h, hostAction_write hi]

theorem index_of_profile (i : Fin 10) : (BitVec.ofNat 5 (0x10 + i.val) : Index).toNat = 0x10 + i.val := by
  have := i.isLt
  simp; omega

/-! ### The inversion of a step -/

/-- `S_k` with the host's write of the cycle applied, in a cycle that is neither a reset nor malformed. -/
inductive HostWrites (s : State) : State → Prop
  | quiet : (hostInputAt s 0).we = false → HostWrites s s
  | register (idx : Index) (v : Word) : hostInputAt s 0 = hostWrite idx v → idx ≠ 0 →
      HostWrites s (writeRegister idx v s)
  | reserved (v : Word) (e : Reserved) : hostInputAt s 0 = hostWrite 0x00 v → decode v = .error e →
      HostWrites s (refuseWrite s)
  | command (v : Word) (i : Instr) (t : State) : hostInputAt s 0 = hostWrite 0x00 v → decode v = .ok i →
      exec i s = .next t → HostWrites s t

/-- Everything a step that answers a next state can be: a reset cycle, or the host's write and the sequencer's together. -/
theorem step_next {s u : State} (h : step s = .next u) :
    ((hostInputAt s 0).rst = true ∧ u = resetCycle s)
      ∨ ((hostInputAt s 0).rst = false ∧ ∃ t, HostWrites s t ∧ u = endCycle s t) := by
  rcases hostInput_cases (hostInputAt s 0) with hr | ⟨hr, hw, he⟩ | ⟨hr, hw⟩ | hw
  · rw [step_reset hr] at h
    exact .inl ⟨hr, by simpa using h.symm⟩
  · rw [step_malformed hr hw he] at h
    cases h
  · rw [step_quiet hr hw] at h
    exact .inr ⟨hr, s, .quiet hw, by simpa using h.symm⟩
  · refine .inr ⟨by rw [hw]; rfl, ?_⟩
    generalize (hostInputAt s 0).idx = idx at hw
    generalize (hostInputAt s 0).wdata = v at hw
    by_cases hi : idx = 0
    · subst hi
      cases hd : decode v with
      | error e =>
        rw [step_reserved hw hd] at h
        exact ⟨_, .reserved v e hw hd, by simpa using h.symm⟩
      | ok i =>
        obtain ⟨t, ht⟩ := exec_answers i s
        rw [step_command hw hd ht] at h
        exact ⟨t, .command v i t hw hd ht, by simpa using h.symm⟩
    · rw [step_write hw hi] at h
      exact ⟨_, .register idx v hw hi, by simpa using h.symm⟩

/-- While busy the host's write reaches only the CRC unit and `cmderr`. -/
theorem hostWrites_busy {s t : State} (h : HostWrites s t) (hb : s.seq ≠ []) :
    t.seq = s.seq ∧ t.rx = s.rx ∧ t.presence = s.presence ∧ t.prof = s.prof := by
  cases h with
  | quiet => simp
  | register idx v => simp [writeRegister_busy _ _ hb, refuseWrite]
  | reserved => simp [refuseWrite]
  | command v i t _ _ he => cases i <;> simp [busCommand_busy _ hb, refuseWrite] at he <;> subst he <;> simp

/-- The host's write leaves the inputs and the cycle counter. -/
theorem hostWrites_inputs {s t : State} (h : HostWrites s t) :
    t.hostInputs = s.hostInputs ∧ t.lineInputs = s.lineInputs ∧ t.cycle = s.cycle := by
  cases h with
  | quiet => simp
  | register idx v =>
    unfold writeRegister
    split
    · split <;> simp [refuseWrite]
    · simp [refuseWrite]
  | reserved => simp [refuseWrite]
  | command v i t _ _ he =>
    cases i <;> simp at he <;> subst he <;> first
      | simp
      | (unfold busCommand; split <;> simp [refuseWrite, loadWave])

/-- An undisturbed cycle answers. -/
theorem step_undisturbed {s : State} (h : (hostInputAt s 0).undisturbing = true) : ∃ u, step s = .next u := by
  rcases hostInput_cases (hostInputAt s 0) with hr | ⟨hr, hw, he⟩ | ⟨hr, hw⟩ | hw
  · exact ⟨_, step_reset hr⟩
  · simp [HostInput.undisturbing, hr, hw, he] at h
  · exact ⟨_, step_quiet hr hw⟩
  · generalize (hostInputAt s 0).idx = idx at hw
    generalize (hostInputAt s 0).wdata = v at hw
    by_cases hi : idx = 0
    · subst hi
      cases hd : decode v with
      | error e => exact ⟨_, step_reserved hw hd⟩
      | ok i =>
        obtain ⟨t, ht⟩ := exec_answers i s
        exact ⟨_, step_command hw hd ht⟩
    · exact ⟨_, step_write hw hi⟩

theorem rst_of_undisturbing {h : HostInput} (hu : h.undisturbing = true) : h.rst = false := by
  cases hr : h.rst <;> simp [HostInput.undisturbing, hr] at hu ⊢

end Sys2Proof.Machine
end

