-- ==== Sys2Proof/Laws/Wave.lean ====
section
/-! SUPPORT. Waveforms: their length, their counts, and what is left of one after some of its cycles (40_sequencer.md R80 to R84). -/

namespace Sys2Proof.Machine

/-! ### Lengths -/

theorem waveCycles_append (w v : List Segment) : waveCycles (w ++ v) = waveCycles w + waveCycles v := by
  induction w with
  | nil => simp [waveCycles]
  | cons g w ih => simp [waveCycles, ih]; omega

theorem waveCycles_norm (w : List Segment) : waveCycles (normWave w) = waveCycles w := by
  induction w with
  | nil => rfl
  | cons g w ih =>
    unfold normWave at *
    cases g with
    | low n => by_cases h : n = 0 <;> simp [List.filter_cons, segmentPresent, segmentCycles, waveCycles, h, ih]
    | rel n => by_cases h : n = 0 <;> simp [List.filter_cons, segmentPresent, segmentCycles, waveCycles, h, ih]
    | sampleP => simp [List.filter_cons, segmentPresent, segmentCycles, waveCycles, ih]
    | sampleD => simp [List.filter_cons, segmentPresent, segmentCycles, waveCycles, ih]

/-! ### Counts -/

/-- Counts that a 16-bit duration can give. -/
def ShortCounts (w : List Segment) : Prop := ∀ g ∈ w, ∀ n, g = .low n ∨ g = .rel n → n ≤ 65535

theorem counted_norm {w : List Segment} (h : ShortCounts w) : Counted (normWave w) := by
  intro g hg
  have hm := List.mem_filter.1 hg
  cases g with
  | low n => exact ⟨by simpa [segmentPresent, Nat.one_le_iff_ne_zero] using hm.2, h _ hm.1 n (.inl rfl)⟩
  | rel n => exact ⟨by simpa [segmentPresent, Nat.one_le_iff_ne_zero] using hm.2, h _ hm.1 n (.inr rfl)⟩
  | sampleP => trivial
  | sampleD => trivial

theorem word_toNat_le (v : Word) : v.toNat ≤ 65535 := by have := v.isLt; omega

theorem shortCounts_resetWave (p : Profile) : ShortCounts (resetWave p) := by
  intro g hg n hn
  simp only [resetWave, List.mem_cons, List.not_mem_nil, or_false] at hg
  rcases hg with rfl | rfl | rfl | rfl <;> simp at hn <;> subst hn <;> exact word_toNat_le _

theorem shortCounts_readWave (p : Profile) : ShortCounts (readWave p) := by
  intro g hg n hn
  simp only [readWave, List.mem_flatten, List.mem_replicate] at hg
  obtain ⟨l, ⟨-, rfl⟩, hg⟩ := hg
  simp only [readSlot, List.mem_cons, List.not_mem_nil, or_false] at hg
  rcases hg with rfl | rfl | rfl | rfl <;> simp at hn <;> subst hn <;> exact word_toNat_le _

theorem shortCounts_writeWave (p : Profile) (b : Byte) : ShortCounts (writeWave p b) := by
  intro g hg n hn
  simp only [writeWave, List.mem_flatMap] at hg
  obtain ⟨x, -, hg⟩ := hg
  cases x <;> simp [writeSlot] at hg <;> rcases hg with rfl | rfl <;> simp at hn <;> subst hn <;>
    exact word_toNat_le _

theorem waveOf_counted {p : Profile} {w : List Segment} (h : WaveOf p w) : Counted w := by
  cases h with
  | reset => exact counted_norm (shortCounts_resetWave p)
  | write b => exact counted_norm (shortCounts_writeWave p b)
  | read => exact counted_norm (shortCounts_readWave p)

/-! ### One segment-cycle -/

theorem counted_advanceSeq {w : List Segment} (h : Counted w) : Counted (advanceSeq w) := by
  cases w with
  | nil => exact h
  | cons g w =>
    have ht : Counted w := fun x hx => h x (List.mem_cons_of_mem _ hx)
    have hg := h g List.mem_cons_self
    cases g with
    | low n =>
      simp only [advanceSeq]; split
      · intro x hx
        rcases List.mem_cons.1 hx with rfl | hx
        · simp only [Segment.counted] at hg ⊢; omega
        · exact ht x hx
      · exact ht
    | rel n =>
      simp only [advanceSeq]; split
      · intro x hx
        rcases List.mem_cons.1 hx with rfl | hx
        · simp only [Segment.counted] at hg ⊢; omega
        · exact ht x hx
      · exact ht
    | sampleP => exact ht
    | sampleD => exact ht

theorem waveCycles_advanceSeq {w : List Segment} (h : Counted w) (hw : w ≠ []) :
    waveCycles (advanceSeq w) + 1 = waveCycles w := by
  cases w with
  | nil => exact absurd rfl hw
  | cons g w =>
    have hg := h g List.mem_cons_self
    cases g <;> simp only [advanceSeq, waveCycles, segmentCycles, Segment.counted] at *
    · split
      · simp only [waveCycles, segmentCycles]; omega
      · omega
    · split
      · simp only [waveCycles, segmentCycles]; omega
      · omega
    · omega
    · omega

theorem waveCycles_advanceSeq_le (w : List Segment) : waveCycles (advanceSeq w) ≤ waveCycles w := by
  cases w with
  | nil => exact Nat.le_refl _
  | cons g w =>
    cases g <;> simp only [advanceSeq, waveCycles, segmentCycles]
    · split
      · simp only [waveCycles, segmentCycles]; omega
      · omega
    · split
      · simp only [waveCycles, segmentCycles]; omega
      · omega
    · omega
    · omega

theorem waveCycles_pos {w : List Segment} (h : Counted w) : 0 < waveCycles w ↔ w ≠ [] := by
  cases w with
  | nil => simp [waveCycles]
  | cons g w =>
    have hg := h g List.mem_cons_self
    cases g <;> simp only [waveCycles, segmentCycles, Segment.counted] at * <;> simp <;> omega

/-! ### Several segment-cycles -/

theorem repeat_add {α : Type} (f : α → α) (a b : Nat) (x : α) :
    Nat.repeat f (a + b) x = Nat.repeat f b (Nat.repeat f a x) := by
  induction b with
  | zero => rfl
  | succ b ih => exact congrArg f ih

theorem repeat_succ' {α : Type} (f : α → α) (a : Nat) (x : α) :
    Nat.repeat f (a + 1) x = Nat.repeat f a (f x) := by
  rw [Nat.add_comm, repeat_add]; rfl

theorem advance_nil (k : Nat) : Nat.repeat advanceSeq k [] = [] := by
  induction k with
  | zero => rfl
  | succ k ih => rw [repeat_succ']; exact ih

theorem advance_low {n k : Nat} (w : List Segment) (h : k < n) :
    Nat.repeat advanceSeq k (.low n :: w) = .low (n - k) :: w := by
  induction k generalizing n with
  | zero => rfl
  | succ k ih =>
    rw [repeat_succ', advanceSeq, if_pos (by omega), ih (by omega)]
    congr 2; omega

theorem advance_low_all {n : Nat} (w : List Segment) (h : 0 < n) :
    Nat.repeat advanceSeq n (.low n :: w) = w := by
  obtain ⟨m, rfl⟩ : ∃ m, n = m + 1 := ⟨n - 1, by omega⟩
  show advanceSeq _ = _
  rw [advance_low w (by omega)]
  simp [advanceSeq]

theorem advance_rel {n k : Nat} (w : List Segment) (h : k < n) :
    Nat.repeat advanceSeq k (.rel n :: w) = .rel (n - k) :: w := by
  induction k generalizing n with
  | zero => rfl
  | succ k ih =>
    rw [repeat_succ', advanceSeq, if_pos (by omega), ih (by omega)]
    congr 2; omega

theorem advance_rel_all {n : Nat} (w : List Segment) (h : 0 < n) :
    Nat.repeat advanceSeq n (.rel n :: w) = w := by
  obtain ⟨m, rfl⟩ : ∃ m, n = m + 1 := ⟨n - 1, by omega⟩
  show advanceSeq _ = _
  rw [advance_rel w (by omega)]
  simp [advanceSeq]

theorem normWave_append (w v : List Segment) : normWave (w ++ v) = normWave w ++ normWave v := by simp [normWave]

theorem normWave_low (n : Nat) (w : List Segment) : normWave (.low n :: w) = if n = 0 then normWave w else .low n :: normWave w := by
  by_cases h : n = 0 <;> simp [normWave, List.filter_cons, segmentPresent, h]

theorem normWave_rel (n : Nat) (w : List Segment) : normWave (.rel n :: w) = if n = 0 then normWave w else .rel n :: normWave w := by
  by_cases h : n = 0 <;> simp [normWave, List.filter_cons, segmentPresent, h]

@[simp] theorem normWave_sampleP (w : List Segment) : normWave (.sampleP :: w) = .sampleP :: normWave w := by
  simp [normWave, List.filter_cons, segmentPresent]

@[simp] theorem normWave_sampleD (w : List Segment) : normWave (.sampleD :: w) = .sampleD :: normWave w := by
  simp [normWave, List.filter_cons, segmentPresent]

@[simp] theorem normWave_nil : normWave [] = [] := rfl

theorem advance_norm_low {n k : Nat} (w : List Segment) (h : k < n) :
    Nat.repeat advanceSeq k (normWave (.low n :: w)) = .low (n - k) :: normWave w := by
  rw [normWave_low, if_neg (by omega), advance_low _ h]

theorem advance_norm_low_all (n : Nat) (w : List Segment) :
    Nat.repeat advanceSeq n (normWave (.low n :: w)) = normWave w := by
  rw [normWave_low]; split
  · subst n; rfl
  · exact advance_low_all _ (by omega)

theorem advance_norm_rel {n k : Nat} (w : List Segment) (h : k < n) :
    Nat.repeat advanceSeq k (normWave (.rel n :: w)) = .rel (n - k) :: normWave w := by
  rw [normWave_rel, if_neg (by omega), advance_rel _ h]

theorem advance_norm_rel_all (n : Nat) (w : List Segment) :
    Nat.repeat advanceSeq n (normWave (.rel n :: w)) = normWave w := by
  rw [normWave_rel]; split
  · subst n; rfl
  · exact advance_rel_all _ (by omega)

theorem waveCycles_advance {w : List Segment} (h : Counted w) {k : Nat} (hk : k ≤ waveCycles w) :
    waveCycles (Nat.repeat advanceSeq k w) + k = waveCycles w ∧ Counted (Nat.repeat advanceSeq k w) := by
  induction k with
  | zero => exact ⟨rfl, h⟩
  | succ k ih =>
    obtain ⟨h1, h2⟩ := ih (by omega)
    have hne := (waveCycles_pos h2).1 (by omega)
    have := waveCycles_advanceSeq h2 hne
    refine ⟨?_, counted_advanceSeq h2⟩
    show waveCycles (advanceSeq (Nat.repeat advanceSeq k w)) + _ = _
    omega

theorem advance_ne_nil {w : List Segment} (h : Counted w) {k : Nat} (hk : k < waveCycles w) :
    Nat.repeat advanceSeq k w ≠ [] := by
  obtain ⟨h1, h2⟩ := waveCycles_advance h (Nat.le_of_lt hk)
  exact (waveCycles_pos h2).1 (by omega)

theorem advance_all {w : List Segment} (h : Counted w) : Nat.repeat advanceSeq (waveCycles w) w = [] := by
  obtain ⟨h1, h2⟩ := waveCycles_advance h (Nat.le_refl _)
  by_contra hn
  have := (waveCycles_pos h2).2 hn
  omega

/-- No such segment in the list, none among the heads. -/
theorem mem_advance {w v : List Segment} {g : Segment} (hg : g = .sampleP ∨ g = .sampleD) {j : Nat}
    (h : Nat.repeat advanceSeq j w = g :: v) : g ∈ w := by
  induction j generalizing w with
  | zero => rw [show w = g :: v from h]; exact List.mem_cons_self
  | succ j ih =>
    rw [repeat_succ'] at h
    have := ih h
    cases w with
    | nil => exact this
    | cons x w =>
      refine List.mem_cons.2 ?_
      cases x with
      | low n =>
        simp only [advanceSeq] at this; split at this
        · rcases List.mem_cons.1 this with h | h
          · rcases hg with rfl | rfl <;> cases h
          · exact .inr h
        · exact .inr this
      | rel n =>
        simp only [advanceSeq] at this; split at this
        · rcases List.mem_cons.1 this with h | h
          · rcases hg with rfl | rfl <;> cases h
          · exact .inr h
        · exact .inr this
      | sampleP => exact .inr this
      | sampleD => exact .inr this

end Sys2Proof.Machine
end

