-- ==== Sys2Proof/Laws/Run.lean ====
section
/-! SUPPORT. Runs of several cycles of a busy block: what is left to play, and what the samples have written so far. -/

namespace Sys2Proof.Machine

/-- One undisturbed cycle of a running operation, field by field. -/
theorem step_busy {s : State} (hu : (hostInputAt s 0).undisturbing = true) (hb : s.seq ≠ []) :
    ∃ u, step s = .next u ∧ u.seq = advanceSeq s.seq ∧ u.prof = s.prof
      ∧ u.rx = nextRx s.seq (!slaveLowAt s 0) s.rx ∧ u.presence = nextPresence s.seq (!slaveLowAt s 0) s.presence
      ∧ u.hostInputs = s.hostInputs.tail ∧ u.lineInputs = s.lineInputs.tail ∧ u.cycle = s.cycle + 1 := by
  obtain ⟨u, h⟩ := step_undisturbed hu
  refine ⟨u, h, ?_⟩
  rcases step_next h with ⟨hr, -⟩ | ⟨-, t, ht, rfl⟩
  · rw [rst_of_undisturbing hu] at hr; cases hr
  · obtain ⟨h1, h2, h3, h4⟩ := hostWrites_busy ht hb
    obtain ⟨h5, h6, h7⟩ := hostWrites_inputs ht
    refine ⟨endCycle_seq_busy t hb, by simp [h4], ?_, ?_, by simp [h5], by simp [h6], by simp [h7]⟩
    · rw [endCycle_rx h2, nextRx_slave]
    · rw [endCycle_presence h3, nextPresence_slave]

/-- `rx` after `k` cycles of a work list, the environment choosing `sl j` in the `j`th. -/
def playRx : Nat → List Segment → (Nat → Bool) → Byte → Byte
  | 0, _, _, r => r
  | k + 1, w, sl, r => playRx k (advanceSeq w) (fun j => sl (j + 1)) (nextRx w (!sl 0) r)

/-- `presence` after `k` cycles of a work list, the environment choosing `sl j` in the `j`th. -/
def playPresence : Nat → List Segment → (Nat → Bool) → Bool → Bool
  | 0, _, _, r => r
  | k + 1, w, sl, r => playPresence k (advanceSeq w) (fun j => sl (j + 1)) (nextPresence w (!sl 0) r)

theorem runCycles_succ (k : Nat) (s : State) : runCycles (k + 1) s = andThen (step s) (runCycles k) := rfl

theorem runCycles_add (a b : Nat) (s : State) :
    runCycles (a + b) s = andThen (runCycles a s) (runCycles b) := by
  induction a generalizing s with
  | zero => rw [Nat.zero_add]; rfl
  | succ a ih =>
    rw [show a + 1 + b = (a + b) + 1 by omega, runCycles_succ, runCycles_succ]
    cases step s with
    | next t => exact ih t
    | fault f => rfl
    | refused r => rfl

/-- Playing `k` cycles of a running operation, whatever undisturbing things the host does. -/
theorem run_busy (k : Nat) {s : State} (hc : s.SeqCounted) (hk : k ≤ waveCycles s.seq) (hu : UndisturbedFor k s) :
    ∃ t, runCycles k s = .next t ∧ t.seq = Nat.repeat advanceSeq k s.seq ∧ t.prof = s.prof
      ∧ t.rx = playRx k s.seq (slaveLowAt s) s.rx ∧ t.presence = playPresence k s.seq (slaveLowAt s) s.presence
      ∧ (∀ j, hostInputAt t j = hostInputAt s (k + j)) ∧ (∀ j, slaveLowAt t j = slaveLowAt s (k + j))
      ∧ t.cycle = s.cycle + k := by
  induction k generalizing s with
  | zero => exact ⟨s, rfl, rfl, rfl, rfl, rfl, by simp, by simp, rfl⟩
  | succ k ih =>
    have hb : s.seq ≠ [] := (waveCycles_pos hc).1 (by omega)
    obtain ⟨u, h, h1, h2, h3, h4, h5, h6, h7⟩ := step_busy (hu 0 (by omega)) hb
    have hc' : u.SeqCounted := by unfold State.SeqCounted; rw [h1]; exact counted_advanceSeq hc
    have := waveCycles_advanceSeq hc hb
    have hi := hostInputAt_of_tail h5
    have hs := slaveLowAt_of_tail h6 h7
    obtain ⟨t, e, e1, e2, e3, e4, e5, e6, e7⟩ := ih hc' (by rw [h1]; omega)
      (fun j hj => by rw [hi]; exact hu (j + 1) (by omega))
    refine ⟨t, by rw [runCycles_succ, h]; exact e, ?_, by rw [e2, h2], ?_, ?_, ?_, ?_, by omega⟩
    · rw [e1, h1, repeat_succ']
    · rw [e3, h1, h3, playRx]; congr 1; funext j; exact hs j
    · rw [e4, h1, h4, playPresence]; congr 1; funext j; exact hs j
    · intro j; rw [e5, hi]; congr 1; omega
    · intro j; rw [e6, hs]; congr 1; omega

theorem playRx_add (a b : Nat) (w : List Segment) (sl : Nat → Bool) (r : Byte) :
    playRx (a + b) w sl r = playRx b (Nat.repeat advanceSeq a w) (fun j => sl (a + j)) (playRx a w sl r) := by
  induction a generalizing w sl r with
  | zero => simp [playRx, Nat.repeat]
  | succ a ih =>
    rw [show a + 1 + b = (a + b) + 1 by omega, playRx, playRx, ih, repeat_succ']
    congr 1; funext j; congr 1; omega

theorem playPresence_add (a b : Nat) (w : List Segment) (sl : Nat → Bool) (r : Bool) :
    playPresence (a + b) w sl r
      = playPresence b (Nat.repeat advanceSeq a w) (fun j => sl (a + j)) (playPresence a w sl r) := by
  induction a generalizing w sl r with
  | zero => simp [playPresence, Nat.repeat]
  | succ a ih =>
    rw [show a + 1 + b = (a + b) + 1 by omega, playPresence, playPresence, ih, repeat_succ']
    congr 1; funext j; congr 1; omega

/-- No SAMPLE_D among the heads, no change of `rx`. -/
theorem playRx_quiet {k : Nat} {w : List Segment} (h : ∀ j, j < k → ∀ v, Nat.repeat advanceSeq j w ≠ .sampleD :: v)
    (sl : Nat → Bool) (r : Byte) : playRx k w sl r = r := by
  induction k generalizing w sl r with
  | zero => rfl
  | succ k ih =>
    rw [playRx, ih (fun j hj v => by rw [← repeat_succ']; exact h (j + 1) (by omega) v)]
    unfold nextRx; split
    · next v => exact absurd rfl (h 0 (by omega) v)
    · rfl

/-- No SAMPLE_P among the heads, no change of `presence`. -/
theorem playPresence_quiet {k : Nat} {w : List Segment}
    (h : ∀ j, j < k → ∀ v, Nat.repeat advanceSeq j w ≠ .sampleP :: v)
    (sl : Nat → Bool) (r : Bool) : playPresence k w sl r = r := by
  induction k generalizing w sl r with
  | zero => rfl
  | succ k ih =>
    rw [playPresence, ih (fun j hj v => by rw [← repeat_succ']; exact h (j + 1) (by omega) v)]
    unfold nextPresence; split
    · next v => exact absurd rfl (h 0 (by omega) v)
    · rfl

/-- `RD idx` from an idle state: one cycle, nothing else. -/
theorem runStmt_rd_idle (idx : Index) {s : State} (hs : s.seq = []) :
    runStmt (.rd idx) s = .next (s.present (hostRead idx)).popInputs := by
  have h := step_quiet (s := s.present (hostRead idx)) rfl rfl
  rw [endCycle_idle (s := s.present (hostRead idx)) hs] at h
  simp only [runStmt, driveAll, h, andThen]

/-- `RD idx` with its value, from an idle state. -/
theorem readValue_idle (idx : Index) {s : State} (hs : s.seq = []) :
    readValue idx s = .next ((s.present (hostRead idx)).popInputs, readRegister s idx) := by
  rw [readValue, runStmt_rd_idle idx hs, andThen]

end Sys2Proof.Machine
end

