-- ==== Sys2Proof/Tests/Slice0.lean ====
section
/-! SUPPORT. Tests, each on one word or one cycle, with expected results from spec/ (the vector is named), and for every
obligation with hypotheses a witness that meets them together. -/

namespace Sys2Proof.Tests

open Sys2Proof Sys2Proof.Machine

/-! ### Decoding: words written out bit by bit, imm8 zero opcode (R61, R63, V01) -/

theorem test_decode_nop : decode 0b0000000000000000 = .ok .nop := by decide
theorem test_decode_owReset : decode 0b0000000000000001 = .ok .owReset := by decide
theorem test_decode_owWriteByte : decode 0b1100110000000010 = .ok (.owWriteByte 0xCC) := by decide
theorem test_decode_owReadByte : decode 0b0000000000000011 = .ok .owReadByte := by decide
theorem test_decode_crcClear : decode 0b0000000000000100 = .ok .crcClear := by decide
theorem test_decode_crcUpdate : decode 0b1010010100000101 = .ok (.crcUpdate 0xA5) := by decide
theorem test_decode_crcCheck : decode 0b1010001000000110 = .ok (.crcCheck 0xA2) := by decide
theorem test_decode_reserved_opcode : decode 0x000F = .error .noSuchOpcode := by decide
theorem test_decode_reserved_operand : decode 0xFF04 = .error .operandNotZero := by decide
theorem test_decode_reserved_zero : decode 0x0080 = .error .zeroField := by decide

/-- P1: OW_WRITE_BYTE 0x44 is the word 0x4402. -/
theorem test_encode_owWriteByte : encode (.owWriteByte 0x44) = 0x4402 := by decide
theorem test_table_word : decodeTableWord 16 0x3302 = some (.owWriteByte 0x33) := by decide

/-! ### WellFormed: one ill-formed term for each check -/

theorem test_zeroOk_refuses : ({ imm8 := 0xCC, zero := 0x1, opcode := 0x2 } : Fields).wellFormed = false := by decide
theorem test_opcodeOk_refuses : ({ imm8 := 0x00, zero := 0x0, opcode := 0x7 } : Fields).wellFormed = false := by decide
theorem test_operandOk_refuses : ({ imm8 := 0x01, zero := 0x0, opcode := 0x1 } : Fields).wellFormed = false := by decide
theorem test_wellFormed_accepts : ({ imm8 := 0xCC, zero := 0x0, opcode := 0x2 } : Fields).wellFormed = true := by decide

/-! ### Small states -/

/-- The profile TINY of spec/95_test_vectors.md. -/
def tiny : Profile := #v[8, 2, 6, 3, 1, 1, 3, 1, 1, 2]

/-- Idle with TINY, the given host inputs and line choices ahead. -/
def idleWith (h : List HostInput) (l : List Bool := []) : State :=
  { State.reset with prof := tiny, hostInputs := h, lineInputs := l }

/-- Busy with the given work list. -/
def busyWith (w : List Segment) (h : List HostInput) (l : List Bool := []) : State :=
  { State.reset with prof := tiny, seq := w, hostInputs := h, lineInputs := l }

/-- The outcome is a next state that passes the check. -/
def answers (o : Host.Outcome State Fault Refusal) (p : State → Bool) : Bool :=
  match o with
  | .next t => p t
  | .fault _ => false
  | .refused _ => false

/-! ### One cycle of each command -/

/-- V10: the waveform `LLLLLLLLrrPrrrrrr`. -/
theorem test_owReset_loads : answers (step (idleWith [hostWrite 0x00 0x0001]))
    (fun t => t.seq == [.low 8, .rel 2, .sampleP, .rel 6] && !t.cmderr) = true := by decide

/-- V14: OW_RESET while busy is refused and the waveform goes on. -/
theorem test_owReset_busy : answers (step (busyWith [.low 4, .rel 2] [hostWrite 0x00 0x0001]))
    (fun t => t.seq == [.low 3, .rel 2] && t.cmderr) = true := by decide

/-- V20: 0xCC begins `LLLr LLLr Lrrr`. -/
theorem test_owWriteByte_loads : answers (step (idleWith [hostWrite 0x00 0xCC02]))
    (fun t => t.seq.take 6 == [.low 3, .rel 1, .low 3, .rel 1, .low 1, .rel 3] && t.seq.length == 16) = true := by
  decide

/-- V24: with the durations of the occurring bit value 0 the waveform is empty and the block stays idle. -/
theorem test_owWriteByte_empty :
    answers (step { idleWith [hostWrite 0x00 0x0002] with prof := #v[8, 2, 6, 0, 0, 1, 3, 1, 1, 2] })
      (fun t => !t.busy && !t.cmderr) = true := by decide

/-- V30: the slot `LrDrr`, and `rx` cleared at accept. -/
theorem test_owReadByte_loads : answers (step { idleWith [hostWrite 0x00 0x0003] with rx := 0x3C })
    (fun t => t.seq.take 5 == [.low 1, .rel 1, .sampleD, .rel 2, .low 1] && t.rx == 0x00) = true := by decide

/-- V35: a refused OW_READ_BYTE does not clear `rx`. -/
theorem test_owReadByte_busy : answers (step { busyWith [.rel 2] [hostWrite 0x00 0x0003] with rx := 0x3C })
    (fun t => t.rx == 0x3C && t.cmderr) = true := by decide

/-- R131: the example. -/
theorem test_crcClear : answers (exec .crcClear { State.reset with crc := 0xA2, crcMatch := true })
    (fun t => t.crc == 0x00 && t.crcMatch) = true := by decide

/-- V50. -/
theorem test_crcUpdate_one : answers (exec (.crcUpdate 0x01) State.reset) (fun t => t.crc == 0x5E) = true := by decide

/-- V52: 0xAF follows 0xBC after the byte 0x1C. -/
theorem test_crcUpdate_next : answers (exec (.crcUpdate 0x1C) { State.reset with crc := 0xBC })
    (fun t => t.crc == 0xAF) = true := by decide

/-- V56. -/
theorem test_crcCheck_match : answers (exec (.crcCheck 0xA2) { State.reset with crc := 0xA2 })
    (fun t => t.crcMatch && t.crc == 0xA2) = true := by decide
theorem test_crcCheck_mismatch : answers (exec (.crcCheck 0xA3) { State.reset with crc := 0xA2, crcMatch := true })
    (fun t => !t.crcMatch) = true := by decide

/-- R87: NOP clears nothing. -/
theorem test_nop : answers (step { busyWith [.low 2] [hostWrite 0x00 0x0000] with cmderr := true })
    (fun t => t.cmderr && t.seq == [.low 1]) = true := by decide

/-! ### One cycle of the sequencer, the port and reset -/

/-- V10: the sample of cycle 11 sees low. -/
theorem test_sampleP_low : answers (step (busyWith [.sampleP, .rel 6] [] [true]))
    (fun t => t.presence && t.seq == [.rel 6]) = true := by decide

/-- V30: 0x94 shifts to 0x4A on a low level, and 0x4A to 0xA5 on a high one. -/
theorem test_sampleD_low : answers (step { busyWith [.sampleD] [] [true] with rx := 0x94 })
    (fun t => t.rx == 0x4A && !t.busy) = true := by decide
theorem test_sampleD_high : answers (step { busyWith [.sampleD] [] [false] with rx := 0x4A })
    (fun t => t.rx == 0xA5) = true := by decide

/-- R40, V02: a read of `prof[9]` returns it. -/
theorem test_read_profile : hRdata (idleWith [hostRead 0x19]) = some 0x0002 := by decide
theorem test_read_reserved : hRdata (idleWith [hostRead 0x1A]) = some 0x0000 := by decide

/-- V02: a write to STATUS sets `cmderr` only; STATUS then reads 0x0008. -/
theorem test_write_status : answers (step (idleWith [hostWrite 0x01 0xFFFF]))
    (fun t => statusWord t == 0x0008) = true := by decide

/-- V02: `WR 0x10, 0xFFFF`. -/
theorem test_write_profile : answers (step (idleWith [hostWrite 0x10 0xFFFF]))
    (fun t => readRegister t 0x10 == 0xFFFF && !t.cmderr) = true := by decide

/-- V61: reset in the middle of a pulse. -/
theorem test_reset_midway :
    answers (step (busyWith [.low 5] [{ hostWrite 0x00 0x0007 with rst := true }]))
      (fun t => t.seq == [] && !owPullLow t && !t.cmderr && t.prof == Vector.replicate 10 0) = true := by decide

/-- R147: seven bytes 0xFF give 0x14; V51: the source's vector gives 0xFB. -/
theorem test_checksum_vectors :
    checksum [0xFF, 0xFF, 0xFF, 0xFF, 0xFF, 0xFF, 0xFF] = 0x14
      ∧ checksum [0x10, 0x00, 0x00, 0x00, 0x00, 0x00, 0x00] = 0xFB := by decide +kernel

/-- P3: the reading of `50 00`, and of `91 F1`. -/
theorem test_scratchpad_reading : scratchpadReading 0x50 0x00 = 80 ∧ scratchpadReading 0x91 0xF1 = 401 := by decide

/-- The word that the host's probe places is fetched and run by the next step. -/
theorem test_withFetchWord : answers (step (State.reset.withFetchWord 16 0x0105)) (fun t => t.crc == 0x5E) = true := by
  decide

/-! ### Witnesses: the hypotheses of each obligation, met together -/

theorem witness_ReservedWordsAreRefused :
    hostInputAt (idleWith [hostWrite 0x00 0x0012]) 0 = hostWrite 0x00 0x0012 ∧ (fieldsOf 0x0012).wellFormed = false := by
  decide

theorem witness_NopDoesNothing :
    hostInputAt (busyWith [.low 2] [hostWrite 0x00 0x0000]) 0 = hostWrite 0x00 0x0000 := by decide

/-- Also for the waveforms of OW_WRITE_BYTE and OW_READ_BYTE. -/
theorem witness_OwResetLoadsItsWaveform : (idleWith []).seq = [] := by decide

theorem witness_BusCommandWhileBusyIsRefused :
    (busyWith [.rel 1] []).seq ≠ [] ∧ (Instr.owWriteByte 0xCC = .owReset ∨ Instr.owWriteByte 0xCC = .owWriteByte 0xCC
      ∨ Instr.owWriteByte 0xCC = .owReadByte) := by decide

theorem witness_CrcUpdateFoldsOneByte :
    ∀ c : Byte, crcShift c = if c.getLsbD 0 = true then (c >>> 1) ^^^ 0x8C else c >>> 1 := fun _ => rfl

theorem witness_BusCommandFrame :
    answers (exec .owReset (idleWith [])) (fun _ => true) = true
      ∧ answers (exec .owReadByte (busyWith [.low 1] [])) (fun _ => true) = true := by decide

theorem witness_CrcCommandFrame :
    answers (exec (.crcCheck 0x00) (busyWith [.low 1] [])) (fun _ => true) = true
      ∧ answers (exec .nop (idleWith [])) (fun _ => true) = true := by decide

theorem witness_StepRunsTheDecodedCommand :
    hostInputAt (idleWith [hostWrite 0x00 0xA505]) 0 = hostWrite 0x00 0xA505
      ∧ decode 0xA505 = .ok (.crcUpdate 0xA5) := by decide

theorem witness_EndCycleAddsTheSequencersWrites :
    (idleWith []).seq = [] ∧ (busyWith [.low 1, .rel 2] []).seq = .low 1 :: [.rel 2]
      ∧ (busyWith [.rel 65535] []).seq = .rel 65535 :: [] ∧ (busyWith [.sampleP, .rel 1] []).seq = .sampleP :: [.rel 1]
      ∧ (busyWith [.sampleD] []).seq = .sampleD :: [] := by decide

/-- Each kind of head, with a host that does nothing, reads, or writes. -/
theorem witness_SequencerStepsWhateverTheHostDoes :
    ((hostInputAt (idleWith [hostRead 0x01]) 0).rst = false ∧ (hostInputAt (idleWith [hostRead 0x01]) 0).we = false
        ∧ answers (step (idleWith [hostRead 0x01])) (fun _ => true) = true)
      ∧ answers (step (busyWith [.low 1, .rel 2] [hostWrite 0x00 0x0003])) (fun t => t.seq == [.rel 2]) = true
      ∧ answers (step (busyWith [.rel 2] [hostWrite 0x10 0x0064])) (fun t => t.seq == [.rel 1]) = true
      ∧ answers (step (busyWith [.sampleP] [noAccess] [false])) (fun t => !t.presence) = true
      ∧ answers (step (busyWith [.sampleD] [hostWrite 0x00 0x0105] [false])) (fun t => t.rx == 0x80) = true := by decide

theorem witness_ResetCycleGivesTheResetState :
    (hostInputAt (idleWith [{ hostRead 0x10 with rst := true }]) 0).rst = true
      ∧ (hostInputAt (idleWith [{ hostRead 0x10 with rst := true }]) 0).re = true
      ∧ (hostInputAt (idleWith [{ hostRead 0x10 with rst := true }]) 0).we = false := by decide

theorem witness_ResetCycleOverridesBothStrobes :
    hostInputAt (busyWith [.low 1] [{ hostRead 0x10 with rst := true, we := true }]) 0
      = { rst := true, we := true, re := true, idx := 0x10, wdata := 0 } := by decide

theorem witness_StrobesOfACycle :
    let both : HostInput := { rst := false, we := true, re := true, idx := 0, wdata := 0 }
    ((hostInputAt (idleWith []) 0).rst = false ∧ (hostInputAt (idleWith []) 0).we = false
        ∧ (hostInputAt (idleWith []) 0).re = false)
      ∧ (hostInputAt (idleWith [both]) 0).rst = false ∧ (hostInputAt (idleWith [both]) 0).we = true
      ∧ (hostInputAt (idleWith [both]) 0).re = true := by decide

/-- The indices where clauses meet: 0x00, 0x01, 0x02, 0x03, 0x04, 0x0F, 0x10, 0x19, 0x1A, 0x1F. -/
theorem witness_HostReadReturnsTheRegister :
    (∀ idx ∈ ([0x00, 0x01, 0x02, 0x03, 0x04, 0x0F, 0x10, 0x19, 0x1A, 0x1F] : List Index),
        (hostInputAt (idleWith [hostRead idx]) 0).reads idx)
      ∧ (0x10#5).toNat = 0x10 + (0 : Fin 10).val ∧ (0x19#5).toNat = 0x10 + (9 : Fin 10).val
      ∧ 0x04 ≤ (0x04#5).toNat ∧ (0x0F#5).toNat ≤ 0x0F ∧ 0x1A ≤ (0x1A#5).toNat ∧ 0x1A ≤ (0x1F#5).toNat := by
  unfold HostInput.reads
  decide

theorem witness_StatusBits : (hostInputAt (idleWith [hostRead 0x01]) 0).reads 0x01 ∧ 4 ≤ 15 := by
  unfold HostInput.reads
  decide

theorem witness_HostWriteAtEveryIndex :
    hostInputAt (idleWith [hostWrite 0x00 0xA206]) 0 = hostWrite 0x00 0xA206
      ∧ decode 0xA206 = .ok (.crcCheck 0xA2)
      ∧ answers (exec (.crcCheck 0xA2) (idleWith [hostWrite 0x00 0xA206])) (fun _ => true) = true
      ∧ decode 0xFFFF = .error .zeroField
      ∧ (0x10#5).toNat = 0x10 + (0 : Fin 10).val ∧ (0x19#5).toNat = 0x10 + (9 : Fin 10).val
      ∧ (idleWith [hostWrite 0x10 0x0005]).seq = [] ∧ (busyWith [.low 1] [hostWrite 0x19 0x0005]).seq ≠ []
      ∧ 0x01 ≤ (0x01#5).toNat ∧ (0x0F#5).toNat ≤ 0x0F ∧ 0x1A ≤ (0x1A#5).toNat := by decide

/-- One state for each of the four causes, and two writes that are accepted. -/
theorem witness_WritesAreRefusedInExactlyFourCases :
    RefusedWrite (busyWith [.low 1] [hostWrite 0x00 0xCC02]) ∧ RefusedWrite (busyWith [.low 1] [hostWrite 0x19 0x0064])
      ∧ RefusedWrite (idleWith [hostWrite 0x00 0x0007]) ∧ RefusedWrite (idleWith [hostWrite 0x01 0xFFFF])
      ∧ RefusedWrite (idleWith [hostWrite 0x1F 0x0000])
      ∧ ¬ RefusedWrite (idleWith [hostWrite 0x10 0x0001]) ∧ ¬ RefusedWrite (busyWith [.low 1] [hostWrite 0x00 0x0105]) := by
  refine ⟨?_, ?_, ?_, ?_, ?_, ?_, ?_⟩ <;> (simp only [RefusedWrite]; decide)

theorem witness_CmderrIsStickyAndHasNoEffect :
    let s : State := { busyWith [.low 2] [hostWrite 0x00 0x0000] with cmderr := true }
    ((hostInputAt s 0).rst = false ∧ answers (step s) (fun _ => true) = true ∧ s.cmderr = true)
      ∧ (hostInputAt (idleWith [hostReset]) 0).rst = true ∧ answers (step (idleWith [hostReset])) (fun _ => true) = true := by
  decide

theorem witness_OnlySamplesWriteTheResults :
    answers (step (busyWith [.sampleP] [] [true])) (fun t => t.presence != false) = true
      ∧ answers (step (busyWith [.sampleD] [] [false])) (fun t => t.rx != 0x00) = true
      ∧ answers (step { idleWith [hostWrite 0x00 0x0003] with rx := 0x3C }) (fun t => t.rx != 0x3C) = true := by decide

theorem witness_OnlyCrcCommandsWriteTheCrcUnit :
    answers (step (busyWith [.low 1] [hostWrite 0x00 0x0105])) (fun t => t.crc != 0x00) = true
      ∧ answers (step (busyWith [.low 1] [hostWrite 0x00 0x0006])) (fun t => t.crcMatch != false) = true
      ∧ (hostInputAt (busyWith [.low 1] [hostWrite 0x00 0x0105]) 0).rst = false := by decide

theorem witness_ProfileIsWrittenOnlyWhileIdle :
    (busyWith [.low 1] [hostWrite 0x10 0x0064]).busy = true
      ∧ hostInputAt (busyWith [.low 1] [hostWrite 0x10 0x0064]) 0 = hostWrite (BitVec.ofNat 5 (0x10 + (0 : Fin 10).val)) 0x0064
      ∧ answers (step (idleWith [hostWrite 0x19 0x0064])) (fun t => t.prof != tiny) = true := by decide

theorem witness_ProfileWriteIsVisibleInTheNextCycle :
    let s := idleWith [hostWrite 0x10 0x0005, hostRead 0x10]
    let r := idleWith [hostWrite 0x10 0x0005, hostWrite 0x00 0x0001]
    s.seq = [] ∧ hostInputAt s 0 = hostWrite (BitVec.ofNat 5 (0x10 + (0 : Fin 10).val)) 0x0005
      ∧ (hostInputAt s 1).reads (BitVec.ofNat 5 (0x10 + (0 : Fin 10).val))
      ∧ hostInputAt r 1 = hostWrite 0x00 0x0001 := by
  unfold HostInput.reads
  decide

theorem witness_PinIsLowExactlyInLowSegments :
    (idleWith []).seq = [] ∧ (busyWith [.rel 1] []).seq = .rel 1 :: [] ∧ (busyWith [.sampleP] []).seq = .sampleP :: []
      ∧ (busyWith [.sampleD] []).seq = .sampleD :: [] := by decide

theorem witness_LineLaw : (busyWith [.sampleD, .rel 2] []).seq = .sampleD :: [.rel 2] := by decide

theorem witness_LineIsReadOnlyInSampleCycles :
    (∀ w, (busyWith [.low 1, .sampleP] []).seq ≠ .sampleP :: w ∧ (busyWith [.low 1, .sampleP] []).seq ≠ .sampleD :: w)
      ∧ answers (step (busyWith [.low 1, .sampleP] [])) (fun _ => true) = true :=
  ⟨fun w => by simp [busyWith], by decide⟩

theorem witness_StepKeepsSequencerCountsLegal :
    (busyWith [.low 65535, .rel 1, .sampleP] []).SeqCounted
      ∧ answers (step (busyWith [.low 65535, .rel 1, .sampleP] [])) (fun _ => true) = true :=
  ⟨by simp [State.SeqCounted, Counted, busyWith, Segment.counted], by decide⟩

theorem witness_StepKeepsRemainingCyclesBounded :
    (busyWith [.low 8, .rel 2] []).SeqBounded ∧ answers (step (busyWith [.low 8, .rel 2] [])) (fun _ => true) = true :=
  ⟨by simp [State.SeqBounded, busyWith, waveCycles, segmentCycles, maxWaveCycles], by decide⟩

/-- Three cycles into TINY's reset pulse. -/
theorem witness_StepKeepsOneProfile :
    (busyWith [.low 5, .rel 2, .sampleP, .rel 6] []).OneProfile
      ∧ answers (step (busyWith [.low 5, .rel 2, .sampleP, .rel 6] [])) (fun _ => true) = true :=
  ⟨⟨_, 3, .reset, by decide⟩, by decide⟩

theorem witness_ZeroDurationsAreAbsent :
    let s : State := { idleWith [] with prof := #v[8, 2, 6, 0, 0, 1, 3, 1, 1, 2] }
    s.seq = [] ∧ normWave (writeWave s.prof 0x00) = [] := by decide

theorem witness_WaveformLengths : WaveOf tiny (normWave (readWave tiny)) := .read

theorem witness_EveryOperationEndsOnTime :
    (busyWith [.low 2, .sampleP, .rel 1] [hostWrite 0x00 0x0001, hostRead 0x01]).SeqCounted
      ∧ UndisturbedFor 4 (busyWith [.low 2, .sampleP, .rel 1] [hostWrite 0x00 0x0001, hostRead 0x01])
      ∧ waveCycles (busyWith [.low 2, .sampleP, .rel 1] [hostWrite 0x00 0x0001, hostRead 0x01]).seq = 4 :=
  ⟨by simp [State.SeqCounted, Counted, busyWith, Segment.counted], by unfold UndisturbedFor; decide, by decide⟩

theorem witness_HostCannotDisturbAnOperation :
    (busyWith [.low 2, .sampleP] []).SeqCounted ∧ 3 ≤ waveCycles (busyWith [.low 2, .sampleP] []).seq
      ∧ UndisturbedFor 3 (busyWith [.low 2, .sampleP] [])
      ∧ UndisturbedFor 3 { busyWith [.low 2, .sampleP] [] with hostInputs := [hostWrite 0x00 0x0001] } :=
  ⟨by simp [State.SeqCounted, Counted, busyWith, Segment.counted], by decide, by unfold UndisturbedFor; decide,
    by unfold UndisturbedFor; decide⟩

/-- V10; the same state serves the clause of OW_RESET in AbsentDeviceReadsAllOnes (V11). -/
theorem witness_ResetPulseAndPresenceCycleByCycle :
    let s := idleWith [hostWrite 0x00 0x0001] (List.replicate 20 false)
    s.seq = [] ∧ hostInputAt s 0 = hostWrite 0x00 0x0001 ∧ UndisturbedFor (8 + 2 + 6 + 2) s
      ∧ (∀ k, k < 1 + waveCycles (normWave (resetWave s.prof)) → slaveLowAt s k = false)
      ∧ UndisturbedFor (1 + waveCycles (normWave (resetWave s.prof))) s := by
  unfold UndisturbedFor
  decide

theorem witness_WriteSlotsCycleByCycle :
    let s := idleWith [hostWrite 0x00 0xCC02]
    s.seq = [] ∧ hostInputAt s 0 = hostWrite 0x00 ((0xCC#8).setWidth 16 <<< 8 ||| 0x0002) ∧ UndisturbedFor 33 s := by
  unfold UndisturbedFor
  decide

/-- V30, V31: also for the assembly of the byte and for the clause of OW_READ_BYTE in AbsentDeviceReadsAllOnes. -/
theorem witness_ReadSlotsCycleByCycle :
    let s := idleWith [hostWrite 0x00 0x0003] (List.replicate 41 false)
    s.seq = [] ∧ hostInputAt s 0 = hostWrite 0x00 0x0003 ∧ UndisturbedFor 41 s
      ∧ (∀ k, k < 41 → slaveLowAt s k = false) ∧ 1 + waveCycles (normWave (readWave s.prof)) = 41 := by
  unfold UndisturbedFor
  decide

/-- One-cycle slots: a 0 is one low cycle, a 1 one released cycle; the byte 0xA5. -/
def loopState : State :=
  { State.reset with
    prof := #v[0, 0, 0, 1, 0, 0, 1, 0, 0, 0]
    hostInputs := hostWrite 0x00 0xA502 :: List.replicate 8 noAccess ++ [hostWrite 0x00 0x0003]
    lineInputs := List.replicate 10 false ++ [false, true, false, true, true, false, true, false] }

theorem loopState_notes : (List.range 8).all (fun i => answers (runCycles (1 + i + 0) loopState)
    fun t => slaveLowAt loopState (10 + i) == !owIn t) = true := by decide

theorem witness_LoopbackReproducesTheByte :
    loopState.seq = [] ∧ hostInputAt loopState 0 = hostWrite 0x00 ((0xA5#8).setWidth 16 <<< 8 ||| 0x0002)
      ∧ loopState.prof[5].toNat ≤ 0 ∧ 0 < loopState.prof[3].toNat
      ∧ 0 < loopState.prof[5].toNat + loopState.prof[6].toNat
      ∧ UndisturbedFor 18 loopState ∧ hostInputAt loopState 9 = hostWrite 0x00 0x0003
      ∧ (∀ k, k < 9 → slaveLowAt loopState k = false)
      ∧ ∀ i t, i < 8 → runCycles (1 + i + 0) loopState = .next t → slaveLowAt loopState (10 + i) = !owIn t := by
  refine ⟨by decide, by decide, by decide, by decide, by decide, by unfold UndisturbedFor; decide, by decide, by decide,
    fun i t hi h => ?_⟩
  have := List.all_eq_true.1 loopState_notes i (List.mem_range.2 hi)
  rw [h] at this
  simpa [answers] using this

theorem witness_CommandSequenceComputesTheChecksum :
    (busyWith [.low 1] ([hostWrite 0x00 0x0004, hostWrite 0x00 0x0105])).NextCommands
      (.crcClear :: [0x01].map .crcUpdate) := ⟨[], by decide⟩

/-- V51. -/
theorem witness_AddressValidation :
    (idleWith ([0x0004, 0x1005, 0x0005, 0x0005, 0x0005, 0x0005, 0x0005, 0x0005, 0xFB06].map (hostWrite 0x00))).NextCommands
      [.crcClear, .crcUpdate 0x10, .crcUpdate 0, .crcUpdate 0, .crcUpdate 0, .crcUpdate 0, .crcUpdate 0, .crcUpdate 0,
        .crcCheck 0xFB] := ⟨[], by decide⟩

theorem witness_FoldingTheChecksumInGivesZero :
    [0x10, 0, 0, 0, 0, 0, 0, 0xFB].length = 8
      ∧ (idleWith ([0x0004, 0x1005, 0x0005, 0x0005, 0x0005, 0x0005, 0x0005, 0x0005, 0xFB05, 0x0006].map
          (hostWrite 0x00))).NextCommands
        (.crcClear :: [0x10, 0, 0, 0, 0, 0, 0, 0xFB].map .crcUpdate ++ [.crcCheck 0x00]) := ⟨rfl, [], by decide⟩

theorem witness_EverySingleBitCorruptionIsDetected : 0 < [0x10#8, 0x00#8].length ∧ 7 < 8 := by decide

theorem witness_WaitEndsIdle : (busyWith [.low 2, .sampleP, .rel 1] []).SeqCounted := by
  simp [State.SeqCounted, Counted, busyWith, Segment.counted]

theorem witness_CallFormsReturnTheResults : (idleWith []).seq = [] := by decide

theorem witness_TransactionStopsWithoutPresence :
    (idleWith [] (List.replicate 20 false)).seq = []
      ∧ slaveLowAt (idleWith [] (List.replicate 20 false)) (1 + 8 + 2) = false := by decide

/-- P2: a device pulls low in the presence sample; also for ConvertAndScratchpadReadComplete (P1, P3). -/
theorem witness_AddressReadReturnsTheValidatedBytes :
    let s := idleWith [] (List.replicate 11 false ++ [true])
    s.seq = [] ∧ slaveLowAt s (1 + s.prof[0].toNat + s.prof[1].toNat) = true ∧ 7 < 8 ∧ 8 < 9 := by decide

/-- P2, cycle 418: `RD STATUS` returns 0x0006 and takes a cycle. -/
theorem test_readValue_status :
    (match readValue 0x01 { idleWith [] with presence := true, crcMatch := true } with
      | .next r => r.2 == 0x0006 && r.1.cycle == 1
      | .fault _ => false
      | .refused _ => false) = true := by decide

end Sys2Proof.Tests
end

section
/-! The word of a decoded command: the encoder gives back every word the decoder accepts (30_encoding.md R61 to R63). -/

namespace Sys2Proof

/-- A format-N decode accepts only with a zero operand (R61), so the word is that of the opcode alone. -/
theorem commandWord_of_withoutOperand {v : Word} {op : BitVec 4} {i j : Instr} (hz : zeroOf v = 0)
    (ho : opcodeOf v = op) (h : withoutOperand (imm8Of v) i = .ok j) : j = i ∧ commandWord 0 op = v := by
  unfold withoutOperand at h
  split at h
  · next hb =>
    refine ⟨by simpa using h.symm, ?_⟩
    rw [← hb, ← ho, commandWord_fields hz]
  · cases h

/-- A format-I word is the command word of its operand and its opcode. -/
theorem commandWord_of_operand {v : Word} {op : BitVec 4} (hz : zeroOf v = 0) (ho : opcodeOf v = op) :
    commandWord (imm8Of v) op = v := by
  rw [← ho, commandWord_fields hz]

theorem encode_of_decode {v : Word} {i : Instr} (h : decode v = .ok i) : encode i = v := by
  unfold decode at h
  split at h
  · cases h
  next hz =>
  replace hz := not_not.1 hz
  split at h
  · next ho => obtain ⟨rfl, hv⟩ := commandWord_of_withoutOperand hz ho h; exact hv
  split at h
  · next ho => obtain ⟨rfl, hv⟩ := commandWord_of_withoutOperand hz ho h; exact hv
  split at h
  · next ho => cases h; exact commandWord_of_operand hz ho
  split at h
  · next ho => obtain ⟨rfl, hv⟩ := commandWord_of_withoutOperand hz ho h; exact hv
  split at h
  · next ho => obtain ⟨rfl, hv⟩ := commandWord_of_withoutOperand hz ho h; exact hv
  split at h
  · next ho => cases h; exact commandWord_of_operand hz ho
  split at h
  · next ho => cases h; exact commandWord_of_operand hz ho
  · cases h

theorem low_byte_commandWord (b : Byte) (op : BitVec 4) : commandWord b op &&& 0x00FF = op.setWidth 16 :=
  (low_byte_mask _ op).2 ⟨zeroOf_commandWord b op, opcodeOf_commandWord b op⟩

end Sys2Proof
end

section
/-! What the host's write of one cycle can do to the state, said once by its effect (20_memory.md R42, R45), and what
follows for every step: each claim on who writes what, and each invariant, is a case analysis of `HostEffect`. -/

namespace Sys2Proof.Machine

/-- Every effect the host's write of a cycle can have, with the write that has it; the bus commands and the profile only
while idle. -/
inductive HostEffect (s : State) : State → Prop
  | nothing : HostEffect s s
  | refused : HostEffect s (refuseWrite s)
  | profile (i : Fin 10) (v : Word) : s.seq = [] →
      hostInputAt s 0 = hostWrite (BitVec.ofNat 5 (0x10 + i.val)) v → HostEffect s (s.setProf i v)
  | load (w : List Segment) : s.seq = [] → WaveOf s.prof w → HostEffect s (s.setSeq w)
  | loadRead : s.seq = [] → hostInputAt s 0 = hostWrite 0x00 0x0003 →
      HostEffect s ((s.setRx 0x00).setSeq (normWave (readWave s.prof)))
  | crc (v : Word) (c : Byte) : hostInputAt s 0 = hostWrite 0x00 v → v = 0x0004 ∨ v &&& 0x00FF = 0x0005 →
      HostEffect s (s.setCrc c)
  | crcMatch (v : Word) (m : Bool) : hostInputAt s 0 = hostWrite 0x00 v → v &&& 0x00FF = 0x0006 →
      HostEffect s (s.setCrcMatch m)

theorem hostEffect_busCommand {s : State} {f : State → State} (h : s.seq = [] → HostEffect s (f s)) :
    HostEffect s (busCommand f s) := by
  by_cases hs : s.seq = []
  · rw [busCommand_idle f hs]; exact h hs
  · rw [busCommand_busy f hs]; exact .refused

theorem writeRegister_profile {idx : Index} {i : Fin 10} (h : profileIndex idx = some i) (v : Word) (s : State) :
    writeRegister idx v s = busCommand (·.setProf i v) s := by
  unfold writeRegister
  rw [h]
  rfl

theorem eq_profile_index {idx : Index} {i : Fin 10} (h : profileIndex idx = some i) :
    idx = BitVec.ofNat 5 (0x10 + i.val) :=
  BitVec.eq_of_toNat_eq (by rw [profileIndex_some.1 h, index_of_profile])

theorem hostEffect_writeRegister {s : State} {idx : Index} {v : Word} (h : hostInputAt s 0 = hostWrite idx v) :
    HostEffect s (writeRegister idx v s) := by
  cases hi : profileIndex idx with
  | none => rw [writeRegister_readOnly v (profileIndex_none.1 hi)]; exact .refused
  | some i =>
    rw [writeRegister_profile hi]
    exact hostEffect_busCommand fun hs => .profile i v hs (eq_profile_index hi ▸ h)

theorem hostEffect_exec {s t : State} {v : Word} {i : Instr} (h : hostInputAt s 0 = hostWrite 0x00 v)
    (hd : decode v = .ok i) (he : exec i s = .next t) : HostEffect s t := by
  have hv := encode_of_decode hd
  cases i <;> cases he
  case nop => exact .nothing
  case owReset => exact hostEffect_busCommand fun hs => .load _ hs .reset
  case owWriteByte b => exact hostEffect_busCommand fun hs => .load _ hs (.write b)
  case owReadByte => exact hostEffect_busCommand fun hs => .loadRead hs (by rw [h, ← hv]; rfl)
  case crcClear => exact .crc v _ h (.inl hv.symm)
  case crcUpdate b => exact .crc v _ h (.inr (hv ▸ low_byte_commandWord b 0x5))
  case crcCheck b => exact .crcMatch v _ h (hv ▸ low_byte_commandWord b 0x6)

theorem hostEffect_of_hostWrites {s t : State} (h : HostWrites s t) : HostEffect s t := by
  cases h with
  | quiet => exact .nothing
  | register idx v h => exact hostEffect_writeRegister h
  | reserved => exact .refused
  | command v i t h hd he => exact hostEffect_exec h hd he

/-- The inversion of a step in a cycle without reset, by the effect of the host's write. -/
theorem step_effect {s u : State} (h : step s = .next u) (hr : (hostInputAt s 0).rst = false) :
    ∃ t, HostEffect s t ∧ u = endCycle s t := by
  rcases step_next h with ⟨hr', -⟩ | ⟨-, t, ht, hu⟩
  · rw [hr] at hr'; cases hr'
  · exact ⟨t, hostEffect_of_hostWrites ht, hu⟩

theorem eq_resetCycle_of_step {s u : State} (h : step s = .next u) (hr : (hostInputAt s 0).rst = true) :
    u = resetCycle s := by
  rw [step_reset hr] at h
  cases h; rfl

/-- What stands in `seq` after a step: nothing, one cycle less of what stood there with the profile as it was, or a
waveform of the present profile just accepted. -/
theorem step_seq_cases {s u : State} (h : step s = .next u) :
    u.seq = [] ∨ (u.seq = advanceSeq s.seq ∧ u.prof = s.prof) ∨ WaveOf u.prof u.seq := by
  rcases step_next h with ⟨-, rfl⟩ | ⟨-, t, ht, rfl⟩
  · exact .inl rfl
  · by_cases hs : s.seq = []
    · rw [endCycle_idle hs]
      cases hostEffect_of_hostWrites ht with
      | load w _ hw => exact .inr (.inr hw)
      | loadRead => exact .inr (.inr .read)
      | nothing => exact .inl hs
      | refused => exact .inl hs
      | profile => exact .inl hs
      | crc => exact .inl hs
      | crcMatch => exact .inl hs
    · obtain ⟨-, -, -, hp⟩ := hostWrites_busy ht hs
      exact .inr (.inl ⟨endCycle_seq_busy t hs, by rw [endCycle_prof, hp]⟩)

/-! ### The one-profile invariant (R17) -/

/-- An idle state has played all of some waveform of its profile. -/
theorem oneProfile_of_idle {s : State} (h : s.seq = []) : s.OneProfile :=
  ⟨_, _, .reset, h.trans (advance_all (waveOf_counted .reset)).symm⟩

/-- Settles O39: the host's write can change the profile only in an idle state, and an idle state has the invariant with
any profile; a busy step takes one cycle off, and an accepted command starts with no cycle played. -/
theorem stepKeepsOneProfile : Obligations.StepKeepsOneProfile := by
  intro s u ⟨w, k, hw, hs⟩ h
  rcases step_seq_cases h with hu | ⟨hu, hp⟩ | hu
  · exact oneProfile_of_idle hu
  · exact ⟨w, k + 1, hp ▸ hw, by rw [hu, hs]; rfl⟩
  · exact ⟨u.seq, 0, hu, rfl⟩

/-- Settles O37: a count in `seq` after a step is one of before, less one cycle, or one of a waveform. -/
theorem stepKeepsSequencerCountsLegal : Obligations.StepKeepsSequencerCountsLegal := by
  intro s u hc h
  unfold State.SeqCounted at *
  rcases step_seq_cases h with hu | ⟨hu, -⟩ | hu
  · rw [hu]; exact fun g hg => absurd hg List.not_mem_nil
  · rw [hu]; exact counted_advanceSeq hc
  · exact waveOf_counted hu

/-! ### Who writes what -/

theorem HostEffect.presence_eq {s t : State} (h : HostEffect s t) : t.presence = s.presence := by
  cases h <;> rfl

theorem HostEffect.rx_cases {s t : State} (h : HostEffect s t) :
    t.rx = s.rx ∨ (s.seq = [] ∧ hostInputAt s 0 = hostWrite 0x00 0x0003) := by
  cases h with
  | loadRead hs hi => exact .inr ⟨hs, hi⟩
  | _ => exact .inl rfl

theorem sampleP_of_nextPresence_ne {w : List Segment} {level p : Bool} (h : nextPresence w level p ≠ p) :
    ∃ v, w = .sampleP :: v := by
  unfold nextPresence at h
  split at h
  · next v => exact ⟨v, rfl⟩
  · exact absurd rfl h

theorem sampleD_of_nextRx_ne {w : List Segment} {level : Bool} {r : Byte} (h : nextRx w level r ≠ r) :
    ∃ v, w = .sampleD :: v := by
  unfold nextRx at h
  split at h
  · next v => exact ⟨v, rfl⟩
  · exact absurd rfl h

/-- Settles O27: the host's write leaves `presence`, and `rx` but for an accepted OW_READ_BYTE; what else changes is the
sequencer's sample. -/
theorem onlySamplesWriteTheResults : Obligations.OnlySamplesWriteTheResults := by
  intro s u h
  cases hr : (hostInputAt s 0).rst with
  | true => exact ⟨fun _ => .inl rfl, fun _ => .inl rfl⟩
  | false =>
    obtain ⟨t, ht, rfl⟩ := step_effect h hr
    constructor
    · intro hne
      rw [endCycle_presence ht.presence_eq] at hne
      exact .inr (sampleP_of_nextPresence_ne hne)
    · intro hne
      rcases ht.rx_cases with hx | hread
      · rw [endCycle_rx hx] at hne
        exact .inr (.inl (sampleD_of_nextRx_ne hne))
      · exact .inr (.inr hread)

/-- Settles O28: of the effects a host's write can have, one writes `crc` and one writes `crc_match`, and the sequencer
writes neither. -/
theorem onlyCrcCommandsWriteTheCrcUnit : Obligations.OnlyCrcCommandsWriteTheCrcUnit := by
  intro s u h hr
  obtain ⟨t, ht, rfl⟩ := step_effect h hr
  rw [endCycle_crc, endCycle_crcMatch]
  constructor
  · intro hne
    cases ht with
    | crc v c hi hv => exact ⟨v, hi, hv⟩
    | _ => exact absurd rfl hne
  · intro hne
    cases ht with
    | crcMatch v m hi hv => exact ⟨v, hi, hv⟩
    | _ => exact absurd rfl hne

/-- Settles O29: while busy the write is refused; of the effects a host's write can have, only the idle profile write
changes the profile. -/
theorem profileIsWrittenOnlyWhileIdle : Obligations.ProfileIsWrittenOnlyWhileIdle := by
  constructor
  · intro s i v hb h
    have hi : (BitVec.ofNat 5 (0x10 + i.val) : Index) ≠ 0 := fun h0 => by
      have := congrArg BitVec.toNat h0
      rw [index_of_profile] at this
      simp at this
    rw [step_write h hi, writeRegister_busy _ v (State.busy_eq_true.1 hb)]
    rfl
  · intro s u h hr
    obtain ⟨t, ht, rfl⟩ := step_effect h hr
    rw [endCycle_prof]
    cases ht with
    | profile i v hs hi => exact .inr ⟨State.busy_eq_false.2 hs, i, v, hi, rfl⟩
    | _ => exact .inl rfl

end Sys2Proof.Machine
end

section
/-! Fields that a cycle does not look at: `cmderr` (10_state.md R25) and, outside the sample cycles, the environment's
choices (R15). Replacing them before a cycle replaces them after it and nothing else. -/

namespace Sys2Proof.Machine

/-- A cycle without reset is the host's write followed by the sequencer's: `step_next`, read backwards. -/
theorem step_of_hostWrites {s t : State} (hr : (hostInputAt s 0).rst = false) (h : HostWrites s t) :
    step s = .next (endCycle s t) := by
  cases h with
  | quiet hw => exact step_quiet hr hw
  | register idx v h hi => exact step_write h hi
  | reserved v e h hd => exact step_reserved h hd
  | command v i t h hd he => exact step_command h hd he

/-- The state with another `cmderr` and other choices of the environment: the listed ones, and by the cycle counter the
free ones. -/
def State.withUnread (s : State) (e : Bool) (l : List Bool) (c : Nat) : State :=
  { s with cmderr := e, lineInputs := l, cycle := c }

section
variable {s t u : State} {e : Bool} {l : List Bool} {c : Nat}

/-- An effect that does not look at the replaced fields makes a bus command that does not: refused or not depends on
`busy` alone, and a refusal sets `cmderr` whatever it was. -/
theorem busCommand_withUnread {f : State → State} (hf : f (s.withUnread e l c) = (f s).withUnread e l c)
    (hc : (f s).cmderr = s.cmderr) :
    ∃ e', (e = s.cmderr → e' = (busCommand f s).cmderr) ∧
      busCommand f (s.withUnread e l c) = (busCommand f s).withUnread e' l c := by
  by_cases hs : s.seq = []
  · rw [busCommand_idle f hs, busCommand_idle f (s := s.withUnread e l c) hs]
    exact ⟨e, fun he => he.trans hc.symm, hf⟩
  · rw [busCommand_busy f hs, busCommand_busy f (s := s.withUnread e l c) hs]
    exact ⟨true, fun _ => rfl, rfl⟩

theorem exec_withUnread {i : Instr} (h : exec i s = .next t) :
    ∃ e', (e = s.cmderr → e' = t.cmderr) ∧ exec i (s.withUnread e l c) = .next (t.withUnread e' l c) := by
  have bus {f : State → State} (hf : f (s.withUnread e l c) = (f s).withUnread e l c) (hc : (f s).cmderr = s.cmderr) :
      ∃ e', (e = s.cmderr → e' = (busCommand f s).cmderr) ∧
        Host.Outcome.next (φ := Fault) (ρ := Refusal) (busCommand f (s.withUnread e l c))
          = .next ((busCommand f s).withUnread e' l c) := by
    obtain ⟨e', he, hb⟩ := busCommand_withUnread hf hc
    exact ⟨e', he, congrArg _ hb⟩
  cases i <;> cases h
  case owReset => exact bus rfl rfl
  case owWriteByte b => exact bus rfl rfl
  case owReadByte => exact bus rfl rfl
  all_goals exact ⟨e, id, rfl⟩

theorem writeRegister_withUnread (idx : Index) (v : Word) :
    ∃ e', (e = s.cmderr → e' = (writeRegister idx v s).cmderr) ∧
      writeRegister idx v (s.withUnread e l c) = (writeRegister idx v s).withUnread e' l c := by
  cases hi : profileIndex idx with
  | none =>
    rw [writeRegister_readOnly v (profileIndex_none.1 hi), writeRegister_readOnly v (profileIndex_none.1 hi)]
    exact ⟨true, fun _ => rfl, rfl⟩
  | some i =>
    rw [writeRegister_profile hi, writeRegister_profile hi]
    exact busCommand_withUnread rfl rfl

theorem HostWrites.withUnread (h : HostWrites s t) (e : Bool) (l : List Bool) (c : Nat) :
    ∃ e', (e = s.cmderr → e' = t.cmderr) ∧ HostWrites (s.withUnread e l c) (t.withUnread e' l c) := by
  cases h with
  | quiet hw => exact ⟨e, id, .quiet hw⟩
  | register idx v h hi =>
    obtain ⟨e', he, hw⟩ := writeRegister_withUnread (s := s) (e := e) (l := l) (c := c) idx v
    exact ⟨e', he, hw ▸ .register idx v h hi⟩
  | reserved v r h hd => exact ⟨true, fun _ => rfl, .reserved (s := s.withUnread e l c) v r h hd⟩
  | command v i t h hd hx =>
    obtain ⟨e', he, hx'⟩ := exec_withUnread (e := e) (l := l) (c := c) hx
    exact ⟨e', he, .command v i _ h hd hx'⟩

/-- The sequencer's writes read the line in the two kinds of sample cycle only. -/
theorem endCycle_withUnread {e' : Bool}
    (hl : owIn (s.withUnread e l c) = owIn s ∨ ∀ w, s.seq ≠ .sampleP :: w ∧ s.seq ≠ .sampleD :: w) :
    endCycle (s.withUnread e l c) (t.withUnread e' l c) = (endCycle s t).withUnread e' l.tail (c + 1) := by
  have hq : (s.withUnread e l c).seq = s.seq := rfl
  unfold endCycle sequencerWrites
  rw [hq]
  split
  · rfl
  · rfl
  · rfl
  · next w hw =>
    rw [hl.resolve_right fun hn => (hn w).1 hw]
    rfl
  · next w hw =>
    rw [hl.resolve_right fun hn => (hn w).2 hw]
    rfl

/-- A cycle in which the sequencer reads no other line is the same but for the replaced fields; when `cmderr` is not
replaced, neither is the one it ends with. -/
theorem step_withUnread (h : step s = .next u)
    (hl : owIn (s.withUnread e l c) = owIn s ∨ ∀ w, s.seq ≠ .sampleP :: w ∧ s.seq ≠ .sampleD :: w) :
    ∃ e', (e = s.cmderr → e' = u.cmderr) ∧
      step (s.withUnread e l c) = .next (u.withUnread e' l.tail (c + 1)) := by
  rcases step_next h with ⟨hr, rfl⟩ | ⟨hr, t, ht, rfl⟩
  · exact ⟨false, fun _ => rfl, step_reset (s := s.withUnread e l c) hr⟩
  · obtain ⟨e', he, ht'⟩ := ht.withUnread e l c
    refine ⟨e', fun h => (he h).trans (endCycle_cmderr s t).symm, ?_⟩
    rw [step_of_hostWrites (s := s.withUnread e l c) hr ht', endCycle_withUnread hl]

/-- Every step uses up one cycle of the environment's choices. -/
theorem step_lineInputs (h : step s = .next u) : u.lineInputs = s.lineInputs.tail ∧ u.cycle = s.cycle + 1 := by
  rcases step_next h with ⟨-, rfl⟩ | ⟨-, t, ht, rfl⟩
  · exact ⟨rfl, rfl⟩
  · obtain ⟨-, hl, hc⟩ := hostWrites_inputs ht
    exact ⟨by rw [endCycle_lineInputs, hl], by rw [endCycle_cycle, hc]⟩

end

/-- Settles O34: a sequencer that does not sample does not read the line, and the host's write never does. -/
theorem lineIsReadOnlyInSampleCycles : Obligations.LineIsReadOnlyInSampleCycles := by
  intro s u l c hs h
  obtain ⟨e', he, hu⟩ := step_withUnread (e := s.cmderr) (l := l) (c := c) h (.inr hs)
  rw [he rfl] at hu
  exact hu

/-! ### Refused writes (20_memory.md R47) -/

/-- A bus command while busy: cause E1. -/
theorem exec_needsIdle_busy {s : State} {i : Instr} (hi : i.needsIdle = true) (hs : s.seq ≠ []) :
    exec i s = .next (refuseWrite s) := by
  cases i <;> cases hi
  case owReset => exact congrArg _ (busCommand_busy _ hs)
  case owWriteByte b => exact congrArg _ (busCommand_busy _ hs)
  case owReadByte => exact congrArg _ (busCommand_busy _ hs)

/-- The words of the three bus commands, as R47 writes E1. -/
theorem decode_needsIdle {v : Word} (h : v = 0x0001 ∨ v &&& 0x00FF = 0x0002 ∨ v = 0x0003) :
    ∃ i, decode v = .ok i ∧ i.needsIdle = true := by
  rcases h with rfl | h | rfl
  · exact ⟨.owReset, by decide, rfl⟩
  · obtain ⟨hz, ho⟩ := (low_byte_mask v 0x2).1 h
    exact ⟨.owWriteByte (imm8Of v), by simp [decode, hz, ho], rfl⟩
  · exact ⟨.owReadByte, by decide, rfl⟩

/-- A word that matches no row of the table is reserved: cause E3. -/
theorem decode_error_of_no_hit {v : Word} (h : ∀ r ∈ opcodeTable, r.hits v = false) :
    ∃ e, decode v = .error e := by
  cases hd : decode v with
  | error e => exact ⟨e, rfl⟩
  | ok i =>
    obtain ⟨r, hr, hit⟩ := hits_of_encode i
    rw [encode_of_decode hd, h r hr] at hit
    cases hit

theorem step_refusedWrite {s : State} (h : RefusedWrite s) : step s = .next (endCycle s (refuseWrite s)) := by
  obtain ⟨hr, hw, he, hcause⟩ := h
  have hin : hostInputAt s 0 = hostWrite (hostInputAt s 0).idx (hostInputAt s 0).wdata := by
    rcases hostInput_cases (hostInputAt s 0) with h | ⟨-, -, h⟩ | ⟨-, h⟩ | h
    · rw [hr] at h; cases h
    · rw [he] at h; cases h
    · rw [hw] at h; cases h
    · exact h
  generalize (hostInputAt s 0).idx = idx at hin hcause
  generalize (hostInputAt s 0).wdata = v at hin hcause
  have hreg (hx : s.seq ≠ [] ∨ idx.toNat < 0x10 ∨ 0x19 < idx.toNat) (h0 : 0 < idx.toNat) :
      step s = .next (endCycle s (refuseWrite s)) := by
    have hne : idx ≠ 0 := fun h => by simp [h] at h0
    rw [step_write hin hne]
    rcases hx with hs | hn
    · rw [writeRegister_busy idx v hs]
    · rw [writeRegister_readOnly v hn]
  rcases hcause with ⟨h0, hv, hb⟩ | ⟨hlo, -, hb⟩ | ⟨h0, hv⟩ | ⟨hlo, hhi⟩ | ⟨hlo, hhi⟩
  · subst h0
    obtain ⟨i, hd, hi⟩ := decode_needsIdle hv
    exact step_command hin hd (exec_needsIdle_busy hi (State.busy_eq_true.1 hb))
  · exact hreg (.inl (State.busy_eq_true.1 hb)) (by omega)
  · subst h0
    obtain ⟨e, hd⟩ := decode_error_of_no_hit hv
    exact step_reserved hin hd
  · exact hreg (.inr (.inl (by omega))) (by omega)
  · exact hreg (.inr (.inr (by omega))) (by omega)

/-- No write of the host clears `cmderr` (R25). -/
theorem HostEffect.cmderr_cases {s t : State} (h : HostEffect s t) : t.cmderr = s.cmderr ∨ t.cmderr = true := by
  cases h with
  | refused => exact .inr rfl
  | _ => exact .inl rfl

/-! ### STATUS (R27) -/

theorem statusWord_bits (s : State) :
    (statusWord s).getLsbD 0 = s.busy ∧ (statusWord s).getLsbD 1 = s.presence
      ∧ (statusWord s).getLsbD 2 = s.crcMatch ∧ (statusWord s).getLsbD 3 = s.cmderr := by
  unfold statusWord
  generalize s.busy = b, s.presence = p, s.crcMatch = m, s.cmderr = e
  revert b p m e
  decide

theorem statusWord_high (s : State) {j : Nat} (h : 4 ≤ j) : (statusWord s).getLsbD j = false := by
  simp only [statusWord, BitVec.getLsbD_setWidth]
  rw [BitVec.getLsbD_of_ge _ j h, Bool.and_false]

/-- Settles O26: no host write clears `cmderr`, only reset does; and no operation looks at it. -/
theorem cmderrIsStickyAndHasNoEffect : Obligations.CmderrIsStickyAndHasNoEffect := by
  refine ⟨?_, ?_, ?_, ?_, ?_⟩
  · intro s u hr h hs
    obtain ⟨t, ht, rfl⟩ := step_effect h hr
    rw [endCycle_cmderr]
    exact ht.cmderr_cases.elim (·.trans hs) id
  · intro s u hr h
    rw [eq_resetCycle_of_step h hr]
    rfl
  · intro s u hw h
    rw [step_refusedWrite hw] at h
    cases h
    rw [endCycle_cmderr]
    rfl
  · intro s u e h
    obtain ⟨e', -, hu⟩ := step_withUnread (e := e) (l := s.lineInputs) (c := s.cycle) h (.inl rfl)
    obtain ⟨hl, hc⟩ := step_lineInputs h
    rw [← hl, ← hc] at hu
    exact ⟨e', hu⟩
  · intro s
    exact (statusWord_bits s).2.2.2

end Sys2Proof.Machine
end

section
/-! One cycle and the pin: reset, strobes, STATUS, the answer of every cycle, and the reset state (10_state.md R12 to R14,
R27, R30). -/

namespace Sys2Proof.Machine

/-- The pin is LOW exactly at a LOW segment (R14, R85). -/
theorem pullsLow_eq_true {w : List Segment} : pullsLow w = true ↔ ∃ n v, w = .low n :: v := by
  cases w with
  | nil => simp [pullsLow]
  | cons g v => cases g <;> simp [pullsLow]

/-- Settles O32: the pin is `pullsLow` of `seq`, and every other head releases it. -/
theorem pinIsLowExactlyInLowSegments : Obligations.PinIsLowExactlyInLowSegments := by
  refine ⟨fun s => ⟨pullsLow_eq_true, fun w n h => ?_⟩, rfl⟩
  unfold owPullLow
  rcases h with h | h | h | h <;> rw [h] <;> rfl

/-- Settles O31: with neither reset nor both strobes a cycle answers (`step_undisturbed`), and reset comes first. -/
theorem everyCycleAnswers : Obligations.EveryCycleAnswers := by
  intro s
  cases hr : (hostInputAt s 0).rst with
  | true => exact .inl ⟨_, step_reset hr⟩
  | false =>
    cases hb : (hostInputAt s 0).we && (hostInputAt s 0).re with
    | true =>
      obtain ⟨hw, he⟩ := Bool.and_eq_true_iff.1 hb
      exact .inr ⟨rfl, hw, he, step_malformed hr hw he⟩
    | false => exact .inl (step_undisturbed (by simp [HostInput.undisturbing, hr, hb]))

/-- The port answers a read in every cycle with one strobe, reset or not (R12, R44). -/
theorem hRdata_of_read {s : State} (hw : (hostInputAt s 0).we = false) (he : (hostInputAt s 0).re = true) :
    hRdata s = some (readRegister s (hostInputAt s 0).idx) := by
  simp [hRdata, hw, he]

theorem hRdata_of_not_read {s : State} (he : (hostInputAt s 0).re = false) : hRdata s = none := by
  simp [hRdata, he]

/-- Settles O19: the next state is `resetCycle s`, each of whose elements has its reset value; a single access that reads
does not write, so it is answered from `S_k`. -/
theorem resetCycleGivesTheResetState : Obligations.ResetCycleGivesTheResetState := by
  intro s hr hone
  refine ⟨⟨resetCycle s, step_reset hr, rfl, rfl, rfl, rfl, rfl, rfl, rfl, rfl, rfl⟩, fun he => ?_⟩
  have hw : (hostInputAt s 0).we = false := hone.resolve_right (by simp [he])
  exact hRdata_of_read hw he

/-- Settles O20: `hostAction` looks at `rst` before the strobes, and `resetCycle` lets the later inputs go on. -/
theorem resetCycleOverridesBothStrobes : Obligations.ResetCycleOverridesBothStrobes :=
  fun _ hr => step_reset hr

/-- Settles O21: neither strobe is a quiet cycle, both are the malformed one. -/
theorem strobesOfACycle : Obligations.StrobesOfACycle :=
  fun _ hr => ⟨fun hw he => ⟨step_quiet hr hw, hRdata_of_not_read he⟩, fun hw he => step_malformed hr hw he⟩

/-- Settles O23: the bits of `statusWord`, and a read is a quiet cycle. -/
theorem statusBits : Obligations.StatusBits := by
  intro s
  obtain ⟨h0, h1, h2, h3⟩ := statusWord_bits s
  exact ⟨h0, h1, h2, h3, fun j hj => statusWord_high s hj, State.busy_eq_true,
    fun ⟨hr, hw, _, _⟩ => step_quiet hr hw⟩

/-- Settles O35: each value of R30's table, as `State.reset` has it. -/
theorem resetValues : Obligations.ResetValues :=
  ⟨fun i => by simp [State.reset], rfl, rfl, rfl, rfl, rfl, rfl, rfl, rfl⟩

/-- Settles O36: the reset state is idle, so no segment stands in `seq`, no cycle is left, and `oneProfile_of_idle`. -/
theorem resetMeetsTheInvariants : Obligations.ResetMeetsTheInvariants :=
  ⟨fun _ hg => absurd hg List.not_mem_nil, Nat.zero_le _, oneProfile_of_idle rfl⟩

end Sys2Proof.Machine
end

section
/-! The register port and the refused writes (20_memory.md R42 to R47), and the frame of the bus commands. -/

namespace Sys2Proof

/-- The decoder accepts the word of every command as that command (30_encoding.md R62, R63). -/
theorem decode_encode (i : Instr) : decode (encode i) = .ok i := by
  cases i <;> simp [encode, decode, withoutOperand]

/-- A reserved word matches no row of the opcode table: cause E3, read backwards. -/
theorem no_hit_of_decode_error {v : Word} {e : Reserved} (h : decode v = .error e) :
    ∀ r ∈ opcodeTable, r.hits v = false := by
  intro r hr
  by_contra hit
  rw [encode_of_hits hr (Bool.of_not_eq_false hit), decode_encode] at h
  cases h

/-- The word of a bus command is one of those that R47 writes for E1. -/
theorem word_of_needsIdle {v : Word} {i : Instr} (hd : decode v = .ok i) (hi : i.needsIdle = true) :
    v = 0x0001 ∨ v &&& 0x00FF = 0x0002 ∨ v = 0x0003 := by
  have hv := encode_of_decode hd
  cases i <;> cases hi
  case owReset => exact .inl hv.symm
  case owWriteByte b => exact .inr (.inl (hv ▸ low_byte_commandWord b 0x2))
  case owReadByte => exact .inr (.inr hv.symm)

end Sys2Proof

namespace Sys2Proof.Machine

theorem index_ne_zero {idx : Index} (h : 0 < idx.toNat) : idx ≠ 0 := by
  rintro rfl
  simp at h

/-! ### Commands in the cycle of their write -/

/-- An accepted bus command loads some waveform and writes nothing else, but for the cleared `rx` of OW_READ_BYTE. -/
theorem exec_needsIdle_idle {s t : State} {i : Instr} (hi : i.needsIdle = true) (hs : s.seq = [])
    (he : exec i s = .next t) : ∃ w, t = s.setSeq w ∨ i = .owReadByte ∧ t = (s.setRx 0x00).setSeq w := by
  cases i <;> cases hi <;> cases he
  case owReset => exact ⟨_, .inl (busCommand_idle _ hs)⟩
  case owWriteByte b => exact ⟨_, .inl (busCommand_idle _ hs)⟩
  case owReadByte => exact ⟨_, .inr ⟨rfl, busCommand_idle _ hs⟩⟩

theorem needsIdle_of_busCommand {i : Instr} {b : Byte} (h : i = .owReset ∨ i = .owWriteByte b ∨ i = .owReadByte) :
    i.needsIdle = true := by
  rcases h with rfl | rfl | rfl <;> rfl

/-- Settles O10: `exec_needsIdle_busy`, the refused write being the state with `cmderr` set. -/
theorem busCommandWhileBusyIsRefused : Obligations.BusCommandWhileBusyIsRefused :=
  fun _ _ _ hs hi => exec_needsIdle_busy (needsIdle_of_busCommand hi) hs

/-- Settles O14: while idle a bus command writes `seq`, and `rx` if it is OW_READ_BYTE; while busy it is refused. -/
theorem busCommandFrame : Obligations.BusCommandFrame := by
  intro s t b i hi he
  replace hi := needsIdle_of_busCommand hi
  by_cases hs : s.seq = []
  · obtain ⟨w, rfl | ⟨rfl, rfl⟩⟩ := exec_needsIdle_idle hi hs he
    · exact ⟨rfl, rfl, rfl, rfl, rfl, rfl, rfl, fun _ => rfl, fun h => absurd hs h, fun _ => rfl⟩
    · exact ⟨rfl, rfl, rfl, rfl, rfl, rfl, rfl, fun _ => rfl, fun h => absurd hs h, fun h => absurd rfl h⟩
  · rw [exec_needsIdle_busy hi hs] at he
    cases he
    exact ⟨rfl, rfl, rfl, rfl, rfl, rfl, rfl, fun h => absurd h hs, fun _ => ⟨rfl, rfl⟩, fun _ => rfl⟩

/-- Settles O16: every command answers a next state, so the step of its write is `step_command`. -/
theorem stepRunsTheDecodedCommand : Obligations.StepRunsTheDecodedCommand := by
  intro s v i h hd
  obtain ⟨t, ht⟩ := exec_answers i s
  rw [ht]
  exact step_command h hd ht

/-- Settles O17: `sequencerWrites` looks at the head of `s.seq`, and each head selects one of its branches. -/
theorem endCycleAddsTheSequencersWrites : Obligations.EndCycleAddsTheSequencersWrites := by
  intro s t w n
  refine ⟨endCycle_idle, fun h => ?_, fun h => ?_, fun h => ?_, fun h => ?_⟩ <;>
    rw [endCycle, sequencerWrites, h] <;> rfl

/-! ### Reads (R44) -/

/-- Away from STATUS, RXDATA and CRC a read looks for a profile register and finds 0x0000 where there is none. -/
theorem readRegister_eq_profile (s : State) {idx : Index} (h : idx.toNat = 0 ∨ 4 ≤ idx.toNat) :
    readRegister s idx = ((profileIndex idx).map (s.prof[·])).getD 0x0000 := by
  have h1 : idx ≠ 0x01 := by rintro rfl; simp at h
  have h2 : idx ≠ 0x02 := by rintro rfl; simp at h
  have h3 : idx ≠ 0x03 := by rintro rfl; simp at h
  rw [readRegister, if_neg h1, if_neg h2, if_neg h3]
  cases profileIndex idx <;> rfl

theorem readRegister_profile (s : State) {idx : Index} {i : Fin 10} (h : idx.toNat = 0x10 + i.val) :
    readRegister s idx = s.prof[i] := by
  rw [readRegister_eq_profile s (by omega), profileIndex_some.2 h]
  rfl

theorem readRegister_reserved (s : State) {idx : Index}
    (h : idx = 0x00 ∨ (0x04 ≤ idx.toNat ∧ idx.toNat ≤ 0x0F) ∨ 0x1A ≤ idx.toNat) :
    readRegister s idx = 0x0000 := by
  have h' : idx.toNat = 0 ∨ (4 ≤ idx.toNat ∧ idx.toNat ≤ 15) ∨ 26 ≤ idx.toNat :=
    h.imp_left (congrArg BitVec.toNat)
  rw [readRegister_eq_profile s (by omega), profileIndex_none.2 (by omega)]
  rfl

/-- Settles O22: a read is a quiet cycle, and the port shows `readRegister`, index by index. -/
theorem hostReadReturnsTheRegister : Obligations.HostReadReturnsTheRegister := by
  intro s idx ⟨hr, hw, he, hidx⟩
  have hdata : hRdata s = some (readRegister s idx) := hidx ▸ hRdata_of_read hw he
  rw [hdata]
  refine ⟨step_quiet hr hw, ?_, ?_, ?_, fun i hi => ?_, fun hi => ?_⟩
  · rintro rfl; rfl
  · rintro rfl; rfl
  · rintro rfl; rfl
  · rw [readRegister_profile s hi]
  · rw [readRegister_reserved s hi]

/-! ### Writes (R43, R45, R47) -/

theorem step_profile_idle {s : State} {idx : Index} {i : Fin 10} {v : Word} (h : hostInputAt s 0 = hostWrite idx v)
    (hi : idx.toNat = 0x10 + i.val) (hs : s.seq = []) : step s = .next (endCycle s (s.setProf i v)) := by
  rw [step_write h (index_ne_zero (by omega)), writeRegister_idle v hi hs]

/-- Settles O24: a write to CMD is the command's or a refusal, and `writeRegister` at the other indices. -/
theorem hostWriteAtEveryIndex : Obligations.HostWriteAtEveryIndex := by
  intro s idx v h
  refine ⟨?_, ?_, fun i hi hs => step_profile_idle h hi hs, fun i hi hs => ?_, fun hi => ?_⟩
  · rintro rfl i t hd he
    exact step_command h hd he
  · rintro rfl e hd
    exact step_reserved h hd
  · rw [step_write h (index_ne_zero (by omega)), writeRegister_busy idx v hs]
    rfl
  · rw [step_write h (index_ne_zero (by omega)), writeRegister_readOnly v (by omega)]
    rfl

theorem refusedWrite_of_busCommand {s : State} {v : Word} (h : hostInputAt s 0 = hostWrite 0x00 v)
    (hv : v = 0x0001 ∨ v &&& 0x00FF = 0x0002 ∨ v = 0x0003) (hb : s.busy = true) : RefusedWrite s := by
  rw [RefusedWrite, h]
  exact ⟨rfl, rfl, rfl, .inl ⟨rfl, hv, hb⟩⟩

theorem refusedWrite_of_reserved {s : State} {v : Word} (h : hostInputAt s 0 = hostWrite 0x00 v)
    (hv : ∀ r ∈ opcodeTable, r.hits v = false) : RefusedWrite s := by
  rw [RefusedWrite, h]
  exact ⟨rfl, rfl, rfl, .inr (.inr (.inl ⟨rfl, hv⟩))⟩

theorem refusedWrite_of_profile {s : State} {idx : Index} {v : Word} {i : Fin 10}
    (h : hostInputAt s 0 = hostWrite idx v) (hi : profileIndex idx = some i) (hb : s.busy = true) :
    RefusedWrite s := by
  have hn := profileIndex_some.1 hi
  rw [RefusedWrite, h]
  exact ⟨rfl, rfl, rfl, .inr (.inl ⟨by simp only [hostWrite]; omega, by simp only [hostWrite]; omega, hb⟩)⟩

theorem refusedWrite_of_readOnly {s : State} {idx : Index} {v : Word} (h : hostInputAt s 0 = hostWrite idx v)
    (h0 : idx ≠ 0) (hi : profileIndex idx = none) : RefusedWrite s := by
  have hn := profileIndex_none.1 hi
  have hpos : 0 < idx.toNat := Nat.pos_of_ne_zero fun hz => h0 (BitVec.eq_of_toNat_eq hz)
  have hlt := idx.isLt
  rw [RefusedWrite, h]
  refine ⟨rfl, rfl, rfl, .inr (.inr (.inr ?_))⟩
  simp only [hostWrite]
  omega

/-- A command that needs no idle block leaves `cmderr`, and so does a bus command while idle. -/
theorem exec_cmderr {s t : State} {i : Instr} (he : exec i s = .next t) :
    t.cmderr = s.cmderr ∨ (i.needsIdle = true ∧ s.busy = true) := by
  cases hi : i.needsIdle with
  | false =>
    cases i <;> cases hi
    all_goals cases he; exact .inl rfl
  | true =>
    by_cases hs : s.seq = []
    · obtain ⟨w, rfl | ⟨-, rfl⟩⟩ := exec_needsIdle_idle hi hs he <;> exact .inl rfl
    · exact .inr ⟨rfl, State.busy_eq_true.2 hs⟩

/-- A host write that changes `cmderr` is one of the four causes (R47). -/
theorem HostWrites.cmderr_eq_or_refused {s t : State} (h : HostWrites s t) :
    t.cmderr = s.cmderr ∨ RefusedWrite s := by
  cases h with
  | quiet => exact .inl rfl
  | register idx v h h0 =>
    cases hi : profileIndex idx with
    | none => exact .inr (refusedWrite_of_readOnly h h0 hi)
    | some i =>
      by_cases hs : s.seq = []
      · exact .inl (by rw [writeRegister_idle v (profileIndex_some.1 hi) hs]; rfl)
      · exact .inr (refusedWrite_of_profile h hi (State.busy_eq_true.2 hs))
  | reserved v e h hd => exact .inr (refusedWrite_of_reserved h (no_hit_of_decode_error hd))
  | command v i t h hd he =>
    exact (exec_cmderr he).imp_right fun ⟨hi, hb⟩ => refusedWrite_of_busCommand h (word_of_needsIdle hd hi) hb

/-- Settles O25: `step_refusedWrite`, and a host write that changes `cmderr` is one of the four causes. -/
theorem writesAreRefusedInExactlyFourCases : Obligations.WritesAreRefusedInExactlyFourCases := by
  refine ⟨fun s => step_refusedWrite, fun s u hr h hn => ?_⟩
  rcases step_next h with ⟨hr', -⟩ | ⟨-, t, ht, rfl⟩
  · rw [hr] at hr'; cases hr'
  · rw [endCycle_cmderr]
    exact ht.cmderr_eq_or_refused.resolve_right hn

/-- The cycle in which an idle block accepts OW_RESET (R83, R100). -/
theorem step_owReset_idle {s : State} (h : hostInputAt s 0 = hostWrite 0x00 0x0001) (hs : s.seq = []) :
    step s = .next (loadWave (resetWave s.prof) s).popInputs := by
  rw [step_command h (decode_encode .owReset) (exec_owReset s), busCommand_idle _ hs, endCycle_idle hs]

/-- Settles O30: the idle write ends in the state with the register set and the next cycle's inputs at the head, which
is idle too. -/
theorem profileWriteIsVisibleInTheNextCycle : Obligations.ProfileWriteIsVisibleInTheNextCycle := by
  intro s i v hs h
  have hin : hostInputAt (s.setProf i v).popInputs 0 = hostInputAt s 1 := hostInputAt_of_tail rfl 0
  refine ⟨(s.setProf i v).popInputs, ?_, fun ⟨_, hw, he, hidx⟩ => ?_, fun hcmd => ?_⟩
  · rw [step_profile_idle h (index_of_profile i) hs, endCycle_idle hs]
  · rw [← hin] at hw he hidx
    rw [hRdata_of_read hw he, hidx, readRegister_profile _ (index_of_profile i)]
    simp
  · exact ⟨_, step_owReset_idle (hin.trans hcmd) hs, rfl⟩

end Sys2Proof.Machine
end

section
/-! The end of an operation: every waveform plays out on time, and a host that polls STATUS sees it (20_memory.md R50,
30_encoding.md R69). -/

namespace Sys2Proof.Machine

/-- Settles O42: after `k` of the `D` cycles `seq` is what is left of it, which is empty at `k = D` and not before. -/
theorem everyOperationEndsOnTime : Obligations.EveryOperationEndsOnTime := by
  intro s hc hu
  constructor
  · intro k hk
    obtain ⟨t, ht, hseq, -⟩ := run_busy k hc (Nat.le_of_lt hk) fun j hj => hu j (by omega)
    exact ⟨t, ht, State.busy_eq_true.2 (hseq ▸ advance_ne_nil hc hk)⟩
  · obtain ⟨t, ht, hseq, -⟩ := run_busy _ hc (Nat.le_refl _) hu
    exact ⟨t, ht, State.busy_eq_false.2 (hseq.trans (advance_all hc))⟩

/-! ### WAIT -/

/-- The state after one read of STATUS by a waiting host (R69). -/
def State.poll (s : State) : State := endCycle (s.present (hostRead 0x01)) (s.present (hostRead 0x01))

theorem step_poll (s : State) : step (s.present (hostRead 0x01)) = .next s.poll := step_quiet rfl rfl

theorem State.poll_seq (s : State) : s.poll.seq = advanceSeq s.seq := by
  by_cases hs : s.seq = []
  · rw [poll, endCycle_idle (s := s.present _) hs, hs]
    exact hs
  · exact endCycle_seq_busy (s := s.present _) _ hs

@[simp] theorem State.poll_prof (s : State) : s.poll.prof = s.prof := endCycle_prof _ _
@[simp] theorem State.poll_crc (s : State) : s.poll.crc = s.crc := endCycle_crc _ _
@[simp] theorem State.poll_crcMatch (s : State) : s.poll.crcMatch = s.crcMatch := endCycle_crcMatch _ _
@[simp] theorem State.poll_cmderr (s : State) : s.poll.cmderr = s.cmderr := endCycle_cmderr _ _
@[simp] theorem State.poll_cycle (s : State) : s.poll.cycle = s.cycle + 1 := endCycle_cycle _ _

theorem readStatus_bit0 (s : State) : (readRegister s 0x01)[0] = s.busy := (statusWord_bits s).1

/-- A waiting host reads STATUS once, and again if it read `busy` (R69). -/
theorem waitIdle_succ (n : Nat) (s : State) :
    waitIdle (n + 1) s = if s.busy then waitIdle n s.poll else .next s.poll := by
  rw [waitIdle, step_poll, andThen, readStatus_bit0]

/-- With `D` cycles left to play, `D` reads return busy and the next one idle. -/
theorem waitIdle_ends (D : Nat) {s : State} (hc : s.SeqCounted) (hD : waveCycles s.seq = D) :
    ∃ t, waitIdle (D + 1) s = .next t ∧ t.busy = false ∧ t.cycle = s.cycle + D + 1
      ∧ t.prof = s.prof ∧ t.crc = s.crc ∧ t.crcMatch = s.crcMatch ∧ t.cmderr = s.cmderr := by
  induction D generalizing s with
  | zero =>
    have hs : s.seq = [] := not_not.1 fun hne => by
      have := (waveCycles_pos hc).2 hne
      omega
    refine ⟨s.poll, ?_, ?_, by simp⟩
    · simp [waitIdle_succ, State.busy_eq_false.2 hs]
    · rw [State.busy_eq_false, State.poll_seq, hs]; rfl
  | succ D ih =>
    have hs : s.seq ≠ [] := (waveCycles_pos hc).1 (by omega)
    have hlen := waveCycles_advanceSeq hc hs
    have hc' : s.poll.SeqCounted := by
      rw [State.SeqCounted, State.poll_seq]
      exact counted_advanceSeq hc
    obtain ⟨t, ht, hb, hcycle, hframe⟩ := ih hc' (by rw [State.poll_seq]; omega)
    refine ⟨t, ?_, hb, ?_, by simpa using hframe⟩
    · rw [waitIdle_succ, State.busy_eq_true.2 hs, if_pos rfl, ht]
    · rw [hcycle, State.poll_cycle]; omega

/-- Settles O54: WAIT reads at most once more than there are cycles left, which is what it takes. -/
theorem waitEndsIdle : Obligations.WaitEndsIdle := fun _ hc => waitIdle_ends _ hc rfl

end Sys2Proof.Machine
end

section
/-! The decoder of R62, said once as the inverse of the encoder, and from it the opcode table, the seven patterns and the
reserved words (30_encoding.md R61 to R66). -/

namespace Sys2Proof

theorem decode_eq_ok_iff {v : Word} {i : Instr} : decode v = .ok i ↔ encode i = v :=
  ⟨encode_of_decode, fun h => h ▸ decode_encode i⟩

/-- Settles O2: every command has a well-formed operand, and decode and encode are each other's inverse. -/
theorem decodeAndEncodeAgree : Obligations.DecodeAndEncodeAgree :=
  ⟨fun i _ => decode_encode i, fun _ i h => ⟨by cases i <;> rfl, encode_of_decode h⟩⟩

/-! ### Match and mask (R63) -/

/-- A format-I word: its low byte is the pattern, its high byte the operand. -/
theorem commandWord_eq_iff {v : Word} {b : Byte} {op : BitVec 4} :
    commandWord b op = v ↔ v &&& 0x00FF = op.setWidth 16 ∧ b = imm8Of v := by
  constructor
  · rintro rfl
    exact ⟨low_byte_commandWord b op, (imm8Of_commandWord b op).symm⟩
  · rintro ⟨hm, rfl⟩
    obtain ⟨hz, ho⟩ := (low_byte_mask v op).1 hm
    exact commandWord_of_operand hz ho

/-- A format-N word: the mask keeps all of it. -/
theorem eq_iff_whole_word {v w : Word} : w = v ↔ v &&& 0xFFFF = w := by
  rw [whole_word_mask, eq_comm]

/-- No two rows of the table give the same command. -/
theorem opcodeTable_commands_differ :
    opcodeTable.Pairwise fun r q => ∀ b : Byte, r.command b ≠ q.command b := by
  simp [opcodeTable]

theorem decode_of_hits {r : OpcodeRow} (hr : r ∈ opcodeTable) {v : Word} (h : r.hits v = true) :
    decode v = .ok (r.command (imm8Of v)) :=
  decode_eq_ok_iff.2 (encode_of_hits hr h).symm

/-- A word that two rows hit would decode to the commands of both. -/
theorem opcodeTable_disjoint :
    opcodeTable.Pairwise fun r q => ∀ v : Word, ¬ (r.hits v = true ∧ q.hits v = true) := by
  refine opcodeTable_commands_differ.imp_of_mem fun hr hq hne v ⟨hrv, hqv⟩ => hne (imm8Of v) ?_
  exact Except.ok.inj ((decode_of_hits hr hrv).symm.trans (decode_of_hits hq hqv))

/-- Settles O3: a word decodes to a command when it is the command's word, which the mask and the operand say. -/
theorem matchAndMaskSelectTheCommand : Obligations.MatchAndMaskSelectTheCommand :=
  ⟨fun _ => decode_eq_ok_iff.trans eq_iff_whole_word,
    fun _ => decode_eq_ok_iff.trans eq_iff_whole_word,
    fun _ _ => decode_eq_ok_iff.trans commandWord_eq_iff,
    fun _ => decode_eq_ok_iff.trans eq_iff_whole_word,
    fun _ => decode_eq_ok_iff.trans eq_iff_whole_word,
    fun _ _ => decode_eq_ok_iff.trans commandWord_eq_iff,
    fun _ _ => decode_eq_ok_iff.trans commandWord_eq_iff,
    opcodeTable_disjoint⟩

/-! ### The table decoder (R66) -/

/-- The row that is found, if any, gives the decoded command; a word without a row is reserved. -/
theorem tableDecode_eq (v : Word) : tableDecode v = (decode v).toOption := by
  unfold tableDecode
  cases hf : opcodeTable.find? (·.hits v) with
  | none =>
    have hno : ∀ r ∈ opcodeTable, r.hits v = false := by simpa using hf
    obtain ⟨e, he⟩ := Machine.decode_error_of_no_hit hno
    rw [he]; rfl
  | some r =>
    have hit : r.hits v = true := by simpa using List.find?_some hf
    rw [decode_of_hits (List.mem_of_find?_eq_some hf) hit]; rfl

/-- Settles O4: the rows as they stand, and `tableDecode_eq`. -/
theorem tableDecoderIsTheDecoder : Obligations.TableDecoderIsTheDecoder := ⟨rfl, tableDecode_eq⟩

/-! ### Reserved words (R61, R65) -/

theorem opcodeFormat_eq_n : ∀ op : BitVec 4, opcodeFormat op = some .n ↔ op ∈ [0x0#4, 0x1#4, 0x3#4, 0x4#4] := by
  decide

theorem opcodeFormat_eq_i : ∀ op : BitVec 4, opcodeFormat op = some .i ↔ op ∈ [0x2#4, 0x5#4, 0x6#4] := by
  decide

/-- The three checks: a zero field 0, and a format-N opcode with no operand or a format-I opcode with any. -/
theorem Fields.wellFormed_iff (f : Fields) :
    f.wellFormed = true ↔ f.zero = 0 ∧
      ((f.opcode ∈ [0x0#4, 0x1#4, 0x3#4, 0x4#4] ∧ f.imm8 = 0) ∨ f.opcode ∈ [0x2#4, 0x5#4, 0x6#4]) := by
  rw [← opcodeFormat_eq_n, ← opcodeFormat_eq_i]
  unfold Fields.wellFormed Fields.zeroOk Fields.opcodeOk Fields.operandOk
  cases opcodeFormat f.opcode with
  | none => simp
  | some k => cases k <;> simp

theorem wellFormed_encode (i : Instr) : (fieldsOf (encode i)).wellFormed = true := by
  cases i with
  | nop => exact Laws.EncodedFields.nop
  | owReset => exact Laws.EncodedFields.owReset
  | owWriteByte b => exact Laws.EncodedFields.owWriteByte b
  | owReadByte => exact Laws.EncodedFields.owReadByte
  | crcClear => exact Laws.EncodedFields.crcClear
  | crcUpdate b => exact Laws.EncodedFields.crcUpdate b
  | crcCheck b => exact Laws.EncodedFields.crcCheck b

/-- Fields that pass the checks are those of a command's word: one command per opcode. -/
theorem encode_of_wellFormed {b : Byte} {op : BitVec 4}
    (h : (op ∈ [0x0#4, 0x1#4, 0x3#4, 0x4#4] ∧ b = 0) ∨ op ∈ [0x2#4, 0x5#4, 0x6#4]) :
    ∃ i, encode i = commandWord b op := by
  simp only [List.mem_cons, List.not_mem_nil, or_false] at h
  rcases h with ⟨rfl | rfl | rfl | rfl, rfl⟩ | rfl | rfl | rfl
  · exact ⟨.nop, rfl⟩
  · exact ⟨.owReset, rfl⟩
  · exact ⟨.owReadByte, rfl⟩
  · exact ⟨.crcClear, rfl⟩
  · exact ⟨.owWriteByte b, rfl⟩
  · exact ⟨.crcUpdate b, rfl⟩
  · exact ⟨.crcCheck b, rfl⟩

/-- A word is a command exactly when its fields pass the three checks. -/
theorem decode_ok_iff_wellFormed (v : Word) : (∃ i, decode v = .ok i) ↔ (fieldsOf v).wellFormed = true := by
  simp only [decode_eq_ok_iff]
  constructor
  · rintro ⟨i, rfl⟩
    exact wellFormed_encode i
  · intro h
    obtain ⟨hz, hop⟩ := (Fields.wellFormed_iff _).1 h
    obtain ⟨i, hi⟩ := encode_of_wellFormed hop
    exact ⟨i, hi.trans (commandWord_fields hz)⟩

theorem decode_error_of_not_wellFormed {v : Word} (h : (fieldsOf v).wellFormed = false) :
    ∃ e, decode v = .error e := by
  cases hd : decode v with
  | error e => exact ⟨e, rfl⟩
  | ok i =>
    rw [(decode_ok_iff_wellFormed v).1 ⟨i, hd⟩] at h
    cases h

/-- Settles O5: `decode_ok_iff_wellFormed`, the checks on the bits, and the step of a reserved word. -/
theorem reservedWordsAreRefused : Obligations.ReservedWordsAreRefused := by
  refine ⟨decode_ok_iff_wellFormed, fun v => Fields.wellFormed_iff (fieldsOf v), fun s v h hv => ?_⟩
  obtain ⟨e, he⟩ := decode_error_of_not_wellFormed hv
  exact Machine.step_reserved h he

/-- Settles O1: ten words, decoded by evaluation. -/
theorem sampleWordsDecode : Obligations.SampleWordsDecode := by
  unfold Obligations.SampleWordsDecode
  decide

end Sys2Proof

namespace Sys2Proof.Machine

/-- Settles O15: each of the four meanings is the state itself or one update of `crc` or `crcMatch`. -/
theorem crcCommandFrame : Obligations.CrcCommandFrame := by
  intro s t b i hi he
  rcases hi with rfl | rfl | rfl | rfl <;> cases he
  · exact ⟨rfl, rfl, rfl, rfl, rfl, rfl, rfl, rfl, fun _ => rfl, fun _ => rfl⟩
  · exact ⟨rfl, rfl, rfl, rfl, rfl, rfl, rfl, rfl, fun _ => rfl, by simp⟩
  · exact ⟨rfl, rfl, rfl, rfl, rfl, rfl, rfl, rfl, fun _ => rfl, by simp⟩
  · exact ⟨rfl, rfl, rfl, rfl, rfl, rfl, rfl, rfl, fun h => absurd rfl h, fun _ => rfl⟩

end Sys2Proof.Machine
end

section
/-! What an operation leaves in `rx` and `presence` once it has played out (40_sequencer.md R81, R82): segment after
segment, and from that the results of the three waveforms. -/

namespace Sys2Proof.Machine

/-! ### One segment -/

/-- Nothing but its samples makes a waveform write: without SAMPLE_D it leaves `rx`. -/
theorem playRx_of_not_mem {w : List Segment} (h : Segment.sampleD ∉ w) (k : Nat) (sl : Nat → Bool) (r : Byte) :
    playRx k w sl r = r :=
  playRx_quiet (fun _ _ _ hv => h (mem_advance (.inr rfl) hv)) sl r

/-- Without SAMPLE_P it leaves `presence`. -/
theorem playPresence_of_not_mem {w : List Segment} (h : Segment.sampleP ∉ w) (k : Nat) (sl : Nat → Bool) (p : Bool) :
    playPresence k w sl p = p :=
  playPresence_quiet (fun _ _ _ hv => h (mem_advance (.inl rfl) hv)) sl p

theorem advance_norm_segment (g : Segment) (w : List Segment) :
    Nat.repeat advanceSeq (segmentCycles g) (normWave (g :: w)) = normWave w := by
  cases g with
  | low n => exact advance_norm_low_all n w
  | rel n => exact advance_norm_rel_all n w
  | sampleP => rw [normWave_sampleP]; rfl
  | sampleD => rw [normWave_sampleD]; rfl

/-- During a LOW or REL segment its own kind stands at the head, so no sample is taken. -/
theorem no_sample_in_low {n j : Nat} {w v : List Segment} {g : Segment} (hg : g = .sampleP ∨ g = .sampleD)
    (hj : j < n) : Nat.repeat advanceSeq j (normWave (.low n :: w)) ≠ g :: v := by
  rw [advance_norm_low w hj]
  rcases hg with rfl | rfl <;> simp

theorem no_sample_in_rel {n j : Nat} {w v : List Segment} {g : Segment} (hg : g = .sampleP ∨ g = .sampleD)
    (hj : j < n) : Nat.repeat advanceSeq j (normWave (.rel n :: w)) ≠ g :: v := by
  rw [advance_norm_rel w hj]
  rcases hg with rfl | rfl <;> simp

/-- The cycles of one segment, a zero one included, write `rx` as its head does. -/
theorem playRx_segment (g : Segment) (w : List Segment) (k : Nat) (sl : Nat → Bool) (r : Byte) :
    playRx (segmentCycles g + k) (normWave (g :: w)) sl r
      = playRx k (normWave w) (fun j => sl (segmentCycles g + j)) (nextRx [g] (!sl 0) r) := by
  rw [playRx_add, advance_norm_segment]
  congr 1
  cases g with
  | low n => exact playRx_quiet (fun _ hj _ => no_sample_in_low (.inr rfl) hj) sl r
  | rel n => exact playRx_quiet (fun _ hj _ => no_sample_in_rel (.inr rfl) hj) sl r
  | sampleP => rw [normWave_sampleP]; rfl
  | sampleD => rw [normWave_sampleD]; rfl

/-- The cycles of one segment, a zero one included, write `presence` as its head does. -/
theorem playPresence_segment (g : Segment) (w : List Segment) (k : Nat) (sl : Nat → Bool) (p : Bool) :
    playPresence (segmentCycles g + k) (normWave (g :: w)) sl p
      = playPresence k (normWave w) (fun j => sl (segmentCycles g + j)) (nextPresence [g] (!sl 0) p) := by
  rw [playPresence_add, advance_norm_segment]
  congr 1
  cases g with
  | low n => exact playPresence_quiet (fun _ hj _ => no_sample_in_low (.inl rfl) hj) sl p
  | rel n => exact playPresence_quiet (fun _ hj _ => no_sample_in_rel (.inl rfl) hj) sl p
  | sampleP => rw [normWave_sampleP]; rfl
  | sampleD => rw [normWave_sampleD]; rfl

/-! ### The waveforms -/

/-- The presence result is the environment's choice in the one SAMPLE_P cycle (R102). -/
theorem playPresence_resetWave (p : Profile) (k : Nat) (sl : Nat → Bool) (q : Bool) :
    playPresence (waveCycles (resetWave p) + k) (normWave (resetWave p)) sl q = sl (tRstl p + tPds p) := by
  have hlen : waveCycles (resetWave p) + k
      = segmentCycles (.low (tRstl p)) + (segmentCycles (.rel (tPds p)) + (segmentCycles .sampleP + (tRstr p + k))) := by
    simp only [resetWave, waveCycles, segmentCycles]; omega
  rw [hlen, resetWave, playPresence_segment, playPresence_segment, playPresence_segment,
    playPresence_of_not_mem (by simp [normWave_rel])]
  simp [nextPresence, presenceOf, segmentCycles]

theorem no_sample_in_writeWave {p : Profile} {b : Byte} {g : Segment} (hg : g = .sampleP ∨ g = .sampleD) :
    g ∉ normWave (writeWave p b) := by
  intro h
  obtain ⟨x, -, hx⟩ := List.mem_flatMap.1 (List.mem_of_mem_filter h)
  rcases hg with rfl | rfl <;> cases x <;> simp [writeSlot] at hx

/-- The cycles of one read slot (R121). -/
def slotCycles (p : Profile) : Nat := tRdl p + tRds p + 1 + tRdr p

theorem waveCycles_readSlot (p : Profile) : waveCycles (readSlot p) = slotCycles p := by
  simp only [readSlot, waveCycles, segmentCycles, slotCycles]; omega

/-- One read slot shifts in the level of its SAMPLE_D cycle (R122). -/
theorem playRx_readSlot (p : Profile) (w : List Segment) (k : Nat) (sl : Nat → Bool) (r : Byte) :
    playRx (slotCycles p + k) (normWave (readSlot p ++ w)) sl r
      = playRx k (normWave w) (fun j => sl (slotCycles p + j)) (shiftIn (!sl (tRdl p + tRds p)) r) := by
  have hlen : slotCycles p + k = segmentCycles (.low (tRdl p)) + (segmentCycles (.rel (tRds p))
      + (segmentCycles .sampleD + (segmentCycles (.rel (tRdr p)) + k))) := by
    simp only [slotCycles, segmentCycles]; omega
  have happ : readSlot p ++ w = .low (tRdl p) :: .rel (tRds p) :: .sampleD :: .rel (tRdr p) :: w := rfl
  rw [hlen, happ, playRx_segment, playRx_segment, playRx_segment, playRx_segment]
  simp only [nextRx, segmentCycles, slotCycles, Nat.add_zero]
  congr 1
  funext j; congr 1; omega

/-- After `n` read slots the top `n` bits of `rx` are their samples, the earliest lowest, and the bits below them are
what stood above (R122). -/
theorem playRx_readSlots (p : Profile) (n k : Nat) (sl : Nat → Bool) (r : Byte) (hn : n ≤ 8) {j : Nat} (hj : j < 8) :
    (playRx (n * slotCycles p + k) (normWave (List.replicate n (readSlot p)).flatten) sl r).getLsbD j
      = if j + n < 8 then r.getLsbD (j + n) else !sl ((j + n - 8) * slotCycles p + tRdl p + tRds p) := by
  induction n generalizing sl r with
  | zero => simp [hj, playRx_of_not_mem]
  | succ n ih =>
    have hlen : (n + 1) * slotCycles p + k = slotCycles p + (n * slotCycles p + k) := by ring
    rw [hlen, List.replicate_succ, List.flatten_cons, playRx_readSlot, ih _ _ (by omega)]
    by_cases hlow : j + n < 7
    · rw [if_pos (by omega), if_pos (by omega), shiftIn_low _ _ hlow]; rfl
    by_cases htop : j + n = 7
    · rw [if_pos (by omega), if_neg (by omega), htop, shiftIn_top, show j + (n + 1) - 8 = 0 by omega, Nat.zero_mul,
        Nat.zero_add]
    · rw [if_neg (by omega), if_neg (by omega), show j + (n + 1) - 8 = (j + n - 8) + 1 by omega]
      congr 2; ring

theorem waveCycles_readSlots (p : Profile) (n : Nat) :
    waveCycles (List.replicate n (readSlot p)).flatten = n * slotCycles p := by
  induction n with
  | zero => rw [Nat.zero_mul]; rfl
  | succ n ih =>
    rw [List.replicate_succ, List.flatten_cons, waveCycles_append, waveCycles_readSlot, ih]
    ring

/-- The byte read: bit `j` is the level of slot `j` (R122). -/
theorem playRx_readWave (p : Profile) (k : Nat) (sl : Nat → Bool) (r : Byte) {j : Nat} (hj : j < 8) :
    (playRx (waveCycles (readWave p) + k) (normWave (readWave p)) sl r).getLsbD j
      = !sl (j * slotCycles p + tRdl p + tRds p) := by
  rw [readWave, waveCycles_readSlots, playRx_readSlots p 8 k sl r (by omega) hj, if_neg (by omega), Nat.add_sub_cancel]

end Sys2Proof.Machine
end

section
/-! The blocking calls of the host (30_encoding.md R69): a bus command written to an idle block and WAIT, with everything
the state holds after them; then the three `CALL_` forms. -/

namespace Sys2Proof.Machine

/-! ### Polling STATUS -/

theorem State.poll_rx (s : State) : s.poll.rx = nextRx s.seq (!slaveLowAt s 0) s.rx := by
  rw [poll, endCycle_rx rfl, nextRx_slave]; rfl

theorem State.poll_presence (s : State) : s.poll.presence = nextPresence s.seq (!slaveLowAt s 0) s.presence := by
  rw [poll, endCycle_presence rfl, nextPresence_slave]; rfl

theorem slaveLowAt_poll (s : State) (j : Nat) : slaveLowAt s.poll j = slaveLowAt s (j + 1) :=
  slaveLowAt_of_tail (endCycle_lineInputs _ _) s.poll_cycle j

/-- A waiting host does nothing but poll. -/
theorem waitIdle_polls (n : Nat) (s : State) : ∃ k, waitIdle n s = .next (Nat.repeat State.poll k s) := by
  induction n generalizing s with
  | zero => exact ⟨0, rfl⟩
  | succ n ih =>
    rw [waitIdle_succ]
    split
    · obtain ⟨k, hk⟩ := ih s.poll
      exact ⟨k + 1, by rw [hk, repeat_succ']⟩
    · exact ⟨1, rfl⟩

theorem polls_cycle (k : Nat) (s : State) : (Nat.repeat State.poll k s).cycle = s.cycle + k := by
  induction k with
  | zero => rfl
  | succ k ih => rw [Nat.repeat, State.poll_cycle, ih]; rfl

theorem polls_rx (k : Nat) (s : State) : (Nat.repeat State.poll k s).rx = playRx k s.seq (slaveLowAt s) s.rx := by
  induction k generalizing s with
  | zero => rfl
  | succ k ih =>
    rw [repeat_succ', ih, State.poll_seq, State.poll_rx, playRx]
    congr 1; funext j; exact slaveLowAt_poll s j

theorem polls_presence (k : Nat) (s : State) :
    (Nat.repeat State.poll k s).presence = playPresence k s.seq (slaveLowAt s) s.presence := by
  induction k generalizing s with
  | zero => rfl
  | succ k ih =>
    rw [repeat_succ', ih, State.poll_seq, State.poll_presence, playPresence]
    congr 1; funext j; exact slaveLowAt_poll s j

theorem slaveLowAt_polls (k : Nat) (s : State) (j : Nat) :
    slaveLowAt (Nat.repeat State.poll k s) j = slaveLowAt s (k + j) := by
  induction k generalizing s with
  | zero => rw [Nat.zero_add]; rfl
  | succ k ih => rw [repeat_succ', ih, slaveLowAt_poll]; congr 1; omega

/-- `waitIdle_ends` with the samples of the cycles played and the choices left to the environment after them. -/
theorem waitIdle_plays {D : Nat} {s : State} (hc : s.SeqCounted) (hD : waveCycles s.seq = D) :
    ∃ t, waitIdle (D + 1) s = .next t ∧ t.busy = false ∧ t.cycle = s.cycle + D + 1
      ∧ t.rx = playRx (D + 1) s.seq (slaveLowAt s) s.rx
      ∧ t.presence = playPresence (D + 1) s.seq (slaveLowAt s) s.presence
      ∧ (∀ j, slaveLowAt t j = slaveLowAt s (D + 1 + j))
      ∧ t.prof = s.prof ∧ t.crc = s.crc ∧ t.crcMatch = s.crcMatch ∧ t.cmderr = s.cmderr := by
  obtain ⟨t, ht, hidle, hcycle, hframe⟩ := waitIdle_ends D hc hD
  obtain ⟨k, hk⟩ := waitIdle_polls (D + 1) s
  obtain rfl : t = Nat.repeat State.poll k s := Host.Outcome.next.inj (ht.symm.trans hk)
  obtain rfl : k = D + 1 := by rw [polls_cycle] at hcycle; omega
  exact ⟨_, ht, hidle, hcycle, polls_rx _ s, polls_presence _ s, slaveLowAt_polls _ s, hframe⟩

/-! ### A bus command and WAIT -/

/-- What stands in `t` after an idle `s` has accepted the waveform `w`, with `rx` set to `r`, and played it to its end:
the waveform's samples, one cycle for the command and `D + 1` for WAIT, and the rest of `s` as it was. -/
structure CallEnds (s : State) (w : List Segment) (r : Byte) (t : State) : Prop where
  idle : t.seq = []
  cycle : t.cycle = s.cycle + waveCycles w + 2
  rx : t.rx = playRx (waveCycles w + 1) (normWave w) (fun j => slaveLowAt s (1 + j)) r
  presence : t.presence = playPresence (waveCycles w + 1) (normWave w) (fun j => slaveLowAt s (1 + j)) s.presence
  line : ∀ j, slaveLowAt t j = slaveLowAt s (waveCycles w + 2 + j)
  prof : t.prof = s.prof
  crc : t.crc = s.crc
  crcMatch : t.crcMatch = s.crcMatch
  cmderr : t.cmderr = s.cmderr

/-- A command in an idle state takes its cycle and nothing else happens in it (R68). -/
theorem runStmt_command_idle {s t : State} {i : Instr} (hs : s.seq = [])
    (he : exec i (s.present (hostWrite 0x00 (encode i))) = .next t) : runStmt (.command i) s = .next t.popInputs := by
  have h := step_command (s := s.present (hostWrite 0x00 (encode i))) rfl (decode_encode i) he
  rw [endCycle_idle (s := s.present _) hs] at h
  simp only [runStmt, driveAll, h, andThen]

/-- The state after the cycle in which an idle block accepts the waveform `w`, with `rx` set to `r` (R83). -/
def State.accepted (s : State) (h : HostInput) (w : List Segment) (r : Byte) : State :=
  (((s.present h).setRx r).setSeq (normWave w)).popInputs

theorem accepted_seqCounted {w : List Segment} (hw : ShortCounts w) (s : State) (h : HostInput) (r : Byte) :
    (s.accepted h w r).SeqCounted :=
  counted_norm hw

theorem slaveLowAt_accepted (s : State) (h : HostInput) (w : List Segment) (r : Byte) :
    slaveLowAt (s.accepted h w r) = fun j => slaveLowAt s (1 + j) := by
  funext j
  rw [Nat.add_comm]
  exact slaveLowAt_of_tail (s := s) rfl rfl j

/-- A bus command written to an idle block, then WAIT. -/
theorem runScript_command_wait {s : State} {i : Instr} {w : List Segment} {r : Byte} (hs : s.seq = [])
    (hw : ShortCounts w)
    (he : ∀ h, exec i (s.present h) = .next (((s.present h).setRx r).setSeq (normWave w))) :
    ∃ t, runScript [.command i, .wait] s = .next t ∧ CallEnds s w r t := by
  have hcmd : runStmt (.command i) s = .next (s.accepted _ w r) := runStmt_command_idle hs (he _)
  have hlen : waveCycles (s.accepted (hostWrite 0x00 (encode i)) w r).seq = waveCycles w := waveCycles_norm w
  obtain ⟨t, ht, hidle, hcycle, hrx, hpresence, hrest, hprof, hcrc, hmatch, herr⟩ :=
    waitIdle_plays (accepted_seqCounted hw s _ r) hlen
  have hrun : runScript [.command i, .wait] s = .next t := by
    rw [runScript, hcmd, andThen, runScript, runStmt, hlen, ht]; rfl
  have hstart : (s.accepted (hostWrite 0x00 (encode i)) w r).cycle = s.cycle + 1 := rfl
  rw [slaveLowAt_accepted] at hrx hpresence hrest
  exact ⟨t, hrun, State.busy_eq_false.1 hidle, by omega, hrx, hpresence,
    fun j => (hrest j).trans (congrArg (slaveLowAt s) (by omega)), hprof, hcrc, hmatch, herr⟩

theorem owReset_ends {s : State} (hs : s.seq = []) :
    ∃ t, runScript [.command .owReset, .wait] s = .next t ∧ CallEnds s (resetWave s.prof) s.rx t :=
  runScript_command_wait hs (shortCounts_resetWave _) fun h => by
    rw [exec_owReset, busCommand_idle (s := s.present h) _ hs]; rfl

/-- `CALL_WRITE b` (R69). -/
theorem callWrite_ends {s : State} (hs : s.seq = []) (b : Byte) :
    ∃ t, runScript (callWrite b) s = .next t ∧ CallEnds s (writeWave s.prof b) s.rx t :=
  runScript_command_wait hs (shortCounts_writeWave _ b) fun h => by
    rw [exec_owWriteByte, busCommand_idle (s := s.present h) _ hs]; rfl

theorem owReadByte_ends {s : State} (hs : s.seq = []) :
    ∃ t, runScript [.command .owReadByte, .wait] s = .next t ∧ CallEnds s (readWave s.prof) 0x00 t :=
  runScript_command_wait hs (shortCounts_readWave _) fun h => by
    rw [exec_owReadByte, busCommand_idle (s := s.present h) _ hs]; rfl

/-! ### The calls that read a result -/

theorem runScript_append (a b : List HostStmt) (s : State) :
    runScript (a ++ b) s = andThen (runScript a s) (runScript b) := by
  induction a generalizing s with
  | nil => rfl
  | cons st a ih =>
    rw [List.cons_append, runScript, runScript]
    cases runStmt st s with
    | next t => exact ih t
    | fault f => rfl
    | refused r => rfl

/-- A script that ends idle, and then one read: the read takes a cycle and nothing else. -/
theorem runScript_then_read {a : List HostStmt} {s t : State} (h : runScript a s = .next t) (hs : t.seq = [])
    (idx : Index) : runScript (a ++ [.rd idx]) s = .next (t.present (hostRead idx)).popInputs := by
  rw [runScript_append, h, andThen, runScript, runStmt_rd_idle idx hs]; rfl

/-- `CALL_RESET` (R69): the state it ends in is that of OW_RESET and WAIT, one read later. -/
theorem callReset_ends {s : State} (hs : s.seq = []) :
    ∃ t, runScript callReset s = .next (t.present (hostRead 0x01)).popInputs ∧ CallEnds s (resetWave s.prof) s.rx t := by
  obtain ⟨t, ht, h⟩ := owReset_ends hs
  exact ⟨t, runScript_then_read ht h.idle 0x01, h⟩

/-- `CALL_READ` (R69): the state it ends in is that of OW_READ_BYTE and WAIT, one read later. -/
theorem callRead_ends {s : State} (hs : s.seq = []) :
    ∃ t, runScript callRead s = .next (t.present (hostRead 0x02)).popInputs ∧ CallEnds s (readWave s.prof) 0x00 t := by
  obtain ⟨t, ht, h⟩ := owReadByte_ends hs
  exact ⟨t, runScript_then_read ht h.idle 0x02, h⟩

theorem presenceRead_eq (s : State) : presenceRead s = s.presence := (statusWord_bits s).2.1

theorem readRegister_rx_bit (s : State) {j : Nat} (hj : j < 8) : (readRegister s 0x02).getLsbD j = s.rx.getLsbD j := by
  show (s.rx.setWidth 16).getLsbD j = _
  rw [BitVec.getLsbD_setWidth, decide_eq_true (by omega), Bool.true_and]

/-- The presence result of an OW_RESET played to its end. -/
theorem CallEnds.presence_reset {s t : State} {r : Byte} (h : CallEnds s (resetWave s.prof) r t) :
    t.presence = slaveLowAt s (1 + tRstl s.prof + tPds s.prof) := by
  rw [h.presence, playPresence_resetWave, ← Nat.add_assoc]

/-- The byte of an OW_READ_BYTE played to its end. -/
theorem CallEnds.rx_read {s t : State} {r : Byte} (h : CallEnds s (readWave s.prof) r t) {j : Nat} (hj : j < 8) :
    t.rx.getLsbD j = !slaveLowAt s (1 + j * slotCycles s.prof + tRdl s.prof + tRds s.prof) := by
  rw [h.rx, playRx_readWave _ _ _ _ hj, ← Nat.add_assoc, ← Nat.add_assoc]

/-- Settles O56: each call ends as `CallEnds` says, and the last read shows `presence` or `rx`. -/
theorem callFormsReturnTheResults : Obligations.CallFormsReturnTheResults := by
  intro s hs
  simp only [waveCycles_norm]
  refine ⟨?_, fun b => ?_, ?_⟩
  · obtain ⟨t, ht, h⟩ := callReset_ends hs
    refine ⟨_, ht, State.busy_eq_false.2 h.idle, congrArg (· + 1) h.cycle, ?_⟩
    rw [presenceRead_eq]
    exact h.presence_reset
  · obtain ⟨t, ht, h⟩ := callWrite_ends hs b
    refine ⟨t, ht, State.busy_eq_false.2 h.idle, h.cycle, ?_, ?_⟩
    · rw [h.rx, playRx_of_not_mem (no_sample_in_writeWave (.inr rfl))]
    · rw [h.presence, playPresence_of_not_mem (no_sample_in_writeWave (.inl rfl))]
  · obtain ⟨t, ht, h⟩ := callRead_ends hs
    refine ⟨_, ht, State.busy_eq_false.2 h.idle, congrArg (· + 1) h.cycle, fun i hi => ?_⟩
    rw [readRegister_rx_bit _ hi]
    exact h.rx_read hi

end Sys2Proof.Machine
end

section
/-! The sequencer (40_sequencer.md): the waveforms the bus commands load, zero durations removed, and how a running
operation plays, whatever the host does. -/

namespace Sys2Proof.Machine

/-! ### Zero durations (R84) -/

theorem segmentPresent_iff {g : Segment} : segmentPresent g = true ↔ g ≠ .low 0 ∧ g ≠ .rel 0 := by
  cases g <;> simp [segmentPresent]

/-- `norm(W)` as R84 writes it. -/
theorem normWave_eq_filter (w : List Segment) :
    normWave w = w.filter fun g => decide (g ≠ .low 0 ∧ g ≠ .rel 0) :=
  List.filter_congr fun _ _ => Bool.eq_iff_iff.2 (by rw [segmentPresent_iff, decide_eq_true_iff])

/-- A present segment is never removed, so a waveform with one is never empty. -/
theorem normWave_ne_nil {w : List Segment} {g : Segment} (hg : g ∈ w) (h : segmentPresent g = true) :
    normWave w ≠ [] :=
  List.ne_nil_of_mem (List.mem_filter.2 ⟨hg, h⟩)

/-- The slots of a byte by bit number (R110). -/
theorem writeWave_eq_slots (p : Profile) (b : Byte) :
    writeWave p b = (List.range 8).flatMap fun i => writeSlot p (b.getLsbD i) := rfl

/-- A slot is empty when the hold and the recovery of its bit value are 0. -/
theorem normWave_writeSlot_eq_nil (p : Profile) (x : Bool) :
    normWave (writeSlot p x) = [] ↔ if x = true then p[5] = 0 ∧ p[6] = 0 else p[3] = 0 ∧ p[4] = 0 := by
  have hnil (m n : Word) : normWave [.low m.toNat, .rel n.toNat] = [] ↔ m = 0 ∧ n = 0 := by
    simp [normWave, segmentPresent, BitVec.toNat_eq]
  cases x
  · exact hnil _ _
  · exact hnil _ _

theorem normWave_writeWave_eq_nil (p : Profile) (b : Byte) :
    normWave (writeWave p b) = [] ↔ ∀ i, i < 8 → normWave (writeSlot p (b.getLsbD i)) = [] := by
  rw [writeWave_eq_slots, normWave, List.filter_flatMap, List.flatMap_eq_nil_iff]
  simp only [List.mem_range]
  rfl

/-! ### The commands in the cycle of their write (R83, R87) -/

theorem exec_owReset_idle {s : State} (hs : s.seq = []) :
    exec .owReset s = .next (s.setSeq (normWave (resetWave s.prof))) :=
  congrArg _ (busCommand_idle _ hs)

theorem exec_owWriteByte_idle {s : State} (hs : s.seq = []) (b : Byte) :
    exec (.owWriteByte b) s = .next (s.setSeq (normWave (writeWave s.prof b))) :=
  congrArg _ (busCommand_idle _ hs)

theorem exec_owReadByte_idle {s : State} (hs : s.seq = []) :
    exec .owReadByte s = .next ((s.setRx 0x00).setSeq (normWave (readWave s.prof))) :=
  congrArg _ (busCommand_idle _ hs)

/-- Settles O6: the word by `matchAndMaskSelectTheCommand`, and the step is that of a command that is the identity. -/
theorem nopDoesNothing : Obligations.NopDoesNothing :=
  ⟨matchAndMaskSelectTheCommand.1, exec_nop, fun s h => step_command h (decode_encode .nop) (exec_nop s)⟩

/-- Settles O7: `exec_owReset_idle`, with `norm(W)` as R84 writes it. -/
theorem owResetLoadsItsWaveform : Obligations.OwResetLoadsItsWaveform := by
  intro s hs
  rw [exec_owReset_idle hs, normWave_eq_filter]
  rfl

/-- Settles O8: `exec_owWriteByte_idle`, with the slots by bit number. -/
theorem owWriteByteLoadsItsWaveform : Obligations.OwWriteByteLoadsItsWaveform := by
  intro s b hs
  rw [exec_owWriteByte_idle hs, normWave_eq_filter, writeWave_eq_slots]
  rfl

/-- Settles O9: `exec_owReadByte_idle`; eight copies of the slot are one per bit number. -/
theorem owReadByteLoadsItsWaveform : Obligations.OwReadByteLoadsItsWaveform := by
  intro s hs
  rw [exec_owReadByte_idle hs, normWave_eq_filter]
  rfl

/-- Settles O40: `norm` is a filter; OW_RESET and OW_READ_BYTE keep their samples; OW_WRITE_BYTE is empty when each of its
slots is, and an idle state that loads nothing is unchanged. -/
theorem zeroDurationsAreAbsent : Obligations.ZeroDurationsAreAbsent := by
  refine ⟨fun w => ⟨List.filter_sublist, fun g hg => ?_, fun g h0 h1 => ?_⟩, fun p => ⟨?_, ?_⟩, fun p b => ?_,
    fun s b hs hw => ?_⟩
  · exact segmentPresent_iff.1 (List.mem_filter.1 hg).2
  · exact List.count_filter (segmentPresent_iff.2 ⟨h0, h1⟩)
  · exact normWave_ne_nil (g := .sampleP) (by simp [resetWave]) rfl
  · exact normWave_ne_nil (g := .sampleD) (by simp [readWave, readSlot]) rfl
  · simp only [normWave_writeWave_eq_nil, normWave_writeSlot_eq_nil]
  · rw [exec_owWriteByte_idle hs, hw, ← hs]; rfl

/-! ### The longest waveform (R91, R194) -/

theorem waveCycles_resetWave (p : Profile) : waveCycles (resetWave p) = tRstl p + tPds p + 1 + tRstr p := by
  simp only [resetWave, waveCycles, segmentCycles]; omega

theorem waveCycles_readWave (p : Profile) : waveCycles (readWave p) = 8 * slotCycles p :=
  waveCycles_readSlots p 8

theorem waveCycles_writeSlot_le (p : Profile) (x : Bool) : waveCycles (writeSlot p x) ≤ 131070 := by
  have hslot (m n : Word) : waveCycles [.low m.toNat, .rel n.toNat] ≤ 131070 := by
    have hm := word_toNat_le m
    have hn := word_toNat_le n
    simp only [waveCycles, segmentCycles]; omega
  cases x
  · exact hslot _ _
  · exact hslot _ _

theorem waveCycles_writeSlots_le (p : Profile) (bits : List Bool) :
    waveCycles (bits.flatMap (writeSlot p)) ≤ bits.length * 131070 := by
  induction bits with
  | nil => exact Nat.zero_le _
  | cons x bits ih =>
    have hx := waveCycles_writeSlot_le p x
    rw [List.flatMap_cons, waveCycles_append, List.length_cons]
    omega

/-- Every waveform fits the bound of R194, which OW_READ_BYTE reaches. -/
theorem waveOf_bounded {p : Profile} {w : List Segment} (h : WaveOf p w) : waveCycles w ≤ maxWaveCycles := by
  cases h with
  | reset =>
    have hlow := word_toNat_le p[0]
    have hdelay := word_toNat_le p[1]
    have hrecovery := word_toNat_le p[2]
    rw [waveCycles_norm, waveCycles_resetWave]
    unfold tRstl tPds tRstr maxWaveCycles
    omega
  | write b =>
    rw [waveCycles_norm]
    exact (waveCycles_writeSlots_le p (lineBits b)).trans (by simp [lineBits, maxWaveCycles])
  | read =>
    have hlow := word_toNat_le p[7]
    have hdelay := word_toNat_le p[8]
    have hrecovery := word_toNat_le p[9]
    rw [waveCycles_norm, waveCycles_readWave]
    unfold slotCycles tRdl tRds tRdr maxWaveCycles
    omega

/-- Settles O38: after a step there is nothing left, no more than before, or a waveform just accepted. -/
theorem stepKeepsRemainingCyclesBounded : Obligations.StepKeepsRemainingCyclesBounded := by
  intro s u hb h
  unfold State.SeqBounded at *
  rcases step_seq_cases h with hu | ⟨hu, -⟩ | hu
  · rw [hu]; exact Nat.zero_le _
  · rw [hu]; exact (waveCycles_advanceSeq_le _).trans hb
  · exact waveOf_bounded hu

/-! ### One cycle (R81, R86) -/

/-- While busy a cycle without reset is the sequencer's step, whatever the host does in it. -/
theorem step_busy_writes {s u : State} (h : step s = .next u) (hr : (hostInputAt s 0).rst = false) (hb : s.seq ≠ []) :
    u.seq = advanceSeq s.seq ∧ u.presence = nextPresence s.seq (owIn s) s.presence
      ∧ u.rx = nextRx s.seq (owIn s) s.rx := by
  rcases step_next h with ⟨hr', -⟩ | ⟨-, t, ht, rfl⟩
  · rw [hr] at hr'; cases hr'
  · obtain ⟨-, hrx, hpresence, -⟩ := hostWrites_busy ht hb
    exact ⟨endCycle_seq_busy t hb, endCycle_presence hpresence, endCycle_rx hrx⟩

/-- Settles O18: `step_busy_writes` at each head; an idle cycle without a write is a quiet one. -/
theorem sequencerStepsWhateverTheHostDoes : Obligations.SequencerStepsWhateverTheHostDoes := by
  intro s u w n hr h
  have busy {g : Segment} (hg : s.seq = g :: w) : u.seq = advanceSeq (g :: w)
      ∧ u.presence = nextPresence (g :: w) (owIn s) s.presence ∧ u.rx = nextRx (g :: w) (owIn s) s.rx :=
    hg ▸ step_busy_writes h hr (hg ▸ List.cons_ne_nil g w)
  refine ⟨fun hs hw => ?_, busy, busy, fun hg => ?_, fun hg => ?_⟩
  · rw [step_quiet hr hw, endCycle_idle hs] at h
    cases h; rfl
  · obtain ⟨hseq, hpresence, hrx⟩ := busy hg
    refine ⟨hseq, hpresence.trans ?_, hrx⟩
    cases owIn s <;> rfl
  · obtain ⟨hseq, hpresence, hrx⟩ := busy hg
    rw [hrx]
    exact ⟨hseq, hpresence, shiftIn_top _ _, fun j hj => shiftIn_low _ _ hj⟩

/-- Settles O33: the level is the AND of the two releases, and a sample releases the pin. -/
theorem lineLaw : Obligations.LineLaw := by
  refine fun s => ⟨by simp [owIn, lineLevel], fun w hw => owIn_of_not_low ?_⟩
  rcases hw with hw | hw <;> rw [hw] <;> rfl

/-! ### Whole operations (R89, R92) -/

/-- Settles O43: `run_busy` gives every field compared from the start state's `seq`, line and results, and not from its
host inputs. -/
theorem hostCannotDisturbAnOperation : Obligations.HostCannotDisturbAnOperation := by
  intro s hs n hc hn hu hu'
  obtain ⟨t, ht, hseq, hprof, hrx, hpresence, -⟩ := run_busy n hc hn hu
  obtain ⟨u, hrun, hseq', hprof', hrx', hpresence', -⟩ := run_busy n (s := { s with hostInputs := hs }) hc hn hu'
  have heq : t.seq = u.seq := hseq.trans hseq'.symm
  exact ⟨t, u, ht, hrun, heq, hrx.trans hrx'.symm, hpresence.trans hpresence'.symm, hprof.trans hprof'.symm,
    congrArg pullsLow heq⟩

/-- The state after the cycle in which an idle `s` accepts the waveform `w`, with `rx` set to `r` (R83). -/
def State.loaded (s : State) (w : List Segment) (r : Byte) : State := ((s.setRx r).setSeq (normWave w)).popInputs

theorem hostInputAt_loaded (s : State) (w : List Segment) (r : Byte) (j : Nat) :
    hostInputAt (s.loaded w r) j = hostInputAt s (1 + j) := by
  rw [Nat.add_comm]
  exact hostInputAt_of_tail rfl j

theorem slaveLowAt_loaded (s : State) (w : List Segment) (r : Byte) :
    slaveLowAt (s.loaded w r) = fun j => slaveLowAt s (1 + j) := by
  funext j
  rw [Nat.add_comm]
  exact slaveLowAt_of_tail rfl rfl j

theorem step_owReset_loads {s : State} (h : hostInputAt s 0 = hostWrite 0x00 0x0001) (hs : s.seq = []) :
    step s = .next (s.loaded (resetWave s.prof) s.rx) :=
  step_owReset_idle h hs

theorem step_owReadByte_loads {s : State} (h : hostInputAt s 0 = hostWrite 0x00 0x0003) (hs : s.seq = []) :
    step s = .next (s.loaded (readWave s.prof) 0x00) := by
  rw [step_command h (decode_encode .owReadByte) (exec_owReadByte_idle hs), endCycle_idle hs]; rfl

/-- A waveform accepted in cycle 0 is played from cycle 1, whatever undisturbing things the host does: what stands in the
state `k` cycles later. -/
theorem run_loaded {s : State} {w : List Segment} {r : Byte} (k : Nat) (hstep : step s = .next (s.loaded w r))
    (hw : ShortCounts w) (hk : k ≤ waveCycles w) (hu : UndisturbedFor (1 + k) s) :
    ∃ t, runCycles (1 + k) s = .next t ∧ t.seq = Nat.repeat advanceSeq k (normWave w) ∧ t.prof = s.prof
      ∧ t.rx = playRx k (normWave w) (fun j => slaveLowAt s (1 + j)) r
      ∧ t.presence = playPresence k (normWave w) (fun j => slaveLowAt s (1 + j)) s.presence
      ∧ (∀ j, hostInputAt t j = hostInputAt s (1 + k + j)) ∧ (∀ j, slaveLowAt t j = slaveLowAt s (1 + k + j)) := by
  have hu' : UndisturbedFor k (s.loaded w r) := fun j hj => by
    rw [hostInputAt_loaded]
    exact hu _ (by omega)
  obtain ⟨t, ht, hseq, hprof, hrx, hpresence, hhost, hslave, -⟩ :=
    run_busy k (s := s.loaded w r) (counted_norm hw) (hk.trans_eq (waveCycles_norm w).symm) hu'
  rw [slaveLowAt_loaded] at hrx hpresence hslave
  refine ⟨t, ?_, hseq, hprof, hrx, hpresence, fun j => ?_, fun j => ?_⟩
  · rw [runCycles_add, runCycles, hstep]; exact ht
  · rw [hhost, hostInputAt_loaded, Nat.add_assoc]
  · rw [hslave, Nat.add_assoc]

/-- After its last cycle the block is idle. -/
theorem advance_norm_all {w : List Segment} (hw : ShortCounts w) :
    Nat.repeat advanceSeq (waveCycles w) (normWave w) = [] := by
  rw [← waveCycles_norm w]
  exact advance_all (counted_norm hw)

/-- The sample of read slot `j` falls within the operation (R121). -/
theorem readSample_lt {p : Profile} {j : Nat} (hj : j < 8) :
    j * slotCycles p + tRdl p + tRds p < waveCycles (readWave p) := by
  have hslots : (j + 1) * slotCycles p ≤ 8 * slotCycles p := Nat.mul_le_mul_right _ hj
  have hslot : tRdl p + tRds p < slotCycles p := by unfold slotCycles; omega
  rw [Nat.succ_mul] at hslots
  rw [waveCycles_readWave]
  omega

/-- Settles O48: every sample sees a free line, so it is 0 for the presence result and 1 for each bit of the byte. -/
theorem absentDeviceReadsAllOnes : Obligations.AbsentDeviceReadsAllOnes := by
  intro s hs
  simp only [waveCycles_norm]
  refine ⟨fun h hu hfree => ?_, fun h hu hfree => ?_⟩
  · have hw := shortCounts_resetWave s.prof
    obtain ⟨t, ht, hseq, -, -, hpresence, -⟩ :=
      run_loaded _ (step_owReset_loads h hs) hw (Nat.le_refl _) hu
    refine ⟨t, ht, State.busy_eq_false.2 (hseq.trans (advance_norm_all hw)), ?_⟩
    have hsample : tRstl s.prof + tPds s.prof < waveCycles (resetWave s.prof) := by
      rw [waveCycles_resetWave]; omega
    exact hpresence.trans ((playPresence_resetWave s.prof 0 _ _).trans (hfree _ (by omega)))
  · have hw := shortCounts_readWave s.prof
    obtain ⟨t, ht, hseq, -, hrx, -⟩ :=
      run_loaded _ (step_owReadByte_loads h hs) hw (Nat.le_refl _) hu
    refine ⟨t, ht, State.busy_eq_false.2 (hseq.trans (advance_norm_all hw)), ?_⟩
    have hbit (j : Nat) (hj : j < 8) : t.rx.getLsbD j = true := by
      have hsample := readSample_lt (p := s.prof) hj
      have hlevel := playRx_readWave s.prof 0 (fun j => slaveLowAt s (1 + j)) 0x00 hj
      rw [Nat.add_zero, ← hrx, hfree _ (by omega)] at hlevel
      exact hlevel
    show t.rx = BitVec.allOnes 8
    exact BitVec.eq_of_getLsbD_eq fun j hj => by rw [hbit j hj, BitVec.getLsbD_allOnes, decide_eq_true hj]

end Sys2Proof.Machine
end

section
/-! The lengths of the waveforms (R194), and OW_RESET cycle by cycle: its pulse, its sample, its end (R101, R102). -/

namespace Sys2Proof.Machine

/-! ### The length of a written byte (R194) -/

theorem waveCycles_writeSlot (p : Profile) (x : Bool) :
    waveCycles (writeSlot p x) = if x = true then tW1l p + tW1r p else tW0l p + tW0r p := by
  cases x <;> rfl

/-- Every 1 takes one slot length and every 0 the other (R111, R112). -/
theorem waveCycles_writeSlots (p : Profile) (bits : List Bool) :
    waveCycles (bits.flatMap (writeSlot p))
      = bits.count true * (tW1l p + tW1r p) + bits.count false * (tW0l p + tW0r p) := by
  induction bits with
  | nil => simp [waveCycles]
  | cons x bits ih =>
    rw [List.flatMap_cons, waveCycles_append, waveCycles_writeSlot, ih]
    cases x <;> simp <;> ring

theorem waveCycles_writeWave (p : Profile) (b : Byte) :
    let ones := (List.range 8).countP fun i => b.getLsbD i
    waveCycles (writeWave p b) = ones * (tW1l p + tW1r p) + (8 - ones) * (tW0l p + tW0r p) := by
  have hones : (lineBits b).count true = (List.range 8).countP fun i => b.getLsbD i := by
    rw [show lineBits b = (List.range 8).map fun i => b.getLsbD i from rfl, List.count_eq_countP, List.countP_map]
    exact List.countP_congr fun _ _ => by simp
  have hlen : (lineBits b).count false + (lineBits b).count true = 8 := List.count_false_add_count_true _
  intro ones
  have hzeros : (lineBits b).count false = 8 - ones := by rw [← hlen, hones, Nat.add_sub_cancel]
  rw [writeWave, waveCycles_writeSlots, hones, hzeros]

/-- Settles O41: the length of each waveform without `norm`, which removes no cycle; the bound is `waveOf_bounded`, and
OW_READ_BYTE with its three durations at their largest reaches it. -/
theorem waveformLengths : Obligations.WaveformLengths := by
  refine ⟨fun p => ?_, fun p b => ?_, fun p => ?_, fun p w => waveOf_bounded,
    Vector.replicate 10 0xFFFF, _, .read, ?_⟩
  · rw [waveCycles_norm]; exact waveCycles_resetWave p
  · rw [waveCycles_norm]; exact waveCycles_writeWave p b
  · rw [waveCycles_norm]; exact waveCycles_readWave p
  · rw [waveCycles_norm, waveCycles_readWave]; rfl

/-! ### The pin (R85) -/

/-- The pin `k` cycles into a waveform: that of the first segment during its cycles, a zero one included, then that of
the rest. -/
theorem pullsLow_advance_norm (g : Segment) (w : List Segment) (k : Nat) :
    pullsLow (Nat.repeat advanceSeq k (normWave (g :: w)))
      = if k < segmentCycles g then pullsLow [g]
        else pullsLow (Nat.repeat advanceSeq (k - segmentCycles g) (normWave w)) := by
  split
  · next hk =>
    cases g with
    | low n => rw [advance_norm_low (n := n) w hk]; rfl
    | rel n => rw [advance_norm_rel (n := n) w hk]; rfl
    | sampleP => rw [normWave_sampleP, Nat.lt_one_iff.1 hk]; rfl
    | sampleD => rw [normWave_sampleD, Nat.lt_one_iff.1 hk]; rfl
  · next hk =>
    obtain ⟨j, rfl⟩ := Nat.exists_eq_add_of_le (Nat.le_of_not_lt hk)
    rw [repeat_add, advance_norm_segment, Nat.add_sub_cancel_left]

/-- The reset pulse (R101): low for T_RSTL cycles, released afterwards. -/
theorem pullsLow_resetWave (p : Profile) (k : Nat) :
    pullsLow (Nat.repeat advanceSeq k (normWave (resetWave p))) = decide (k < tRstl p) := by
  have hreleased (j : Nat) :
      pullsLow (Nat.repeat advanceSeq j (normWave [.rel (tPds p), .sampleP, .rel (tRstr p)])) = false := by
    simp only [pullsLow_advance_norm, normWave_nil, advance_nil]
    split_ifs <;> rfl
  rw [resetWave, pullsLow_advance_norm, hreleased]
  show (if k < tRstl p then true else false) = _
  simp

/-! ### The presence sample (R102) -/

theorem no_sample_before_presence {p : Profile} {j : Nat} (hj : j < tRstl p + tPds p) (v : List Segment) :
    Nat.repeat advanceSeq j (normWave (resetWave p)) ≠ .sampleP :: v := by
  by_cases hlow : j < tRstl p
  · exact no_sample_in_low (.inl rfl) hlow
  · obtain ⟨i, rfl⟩ := Nat.exists_eq_add_of_le (Nat.le_of_not_lt hlow)
    rw [resetWave, repeat_add, advance_norm_low_all]
    exact no_sample_in_rel (.inl rfl) (Nat.lt_of_add_lt_add_left hj)

/-- `presence` at each cycle of OW_RESET: the old value through the sample cycle, that cycle's `slave_low` after it. -/
theorem playPresence_resetWave_at (p : Profile) (k : Nat) (sl : Nat → Bool) (q : Bool) :
    playPresence k (normWave (resetWave p)) sl q = if k ≤ tRstl p + tPds p then q else sl (tRstl p + tPds p) := by
  split
  · next hk => exact playPresence_quiet (fun _ hj => no_sample_before_presence (hj.trans_le hk)) sl q
  · next hk =>
    obtain ⟨m, rfl⟩ : ∃ m, k = segmentCycles (.low (tRstl p)) + (segmentCycles (.rel (tPds p))
        + (segmentCycles .sampleP + m)) :=
      ⟨k - (tRstl p + tPds p + 1), by simp only [segmentCycles]; omega⟩
    rw [resetWave, playPresence_segment, playPresence_segment, playPresence_segment,
      playPresence_of_not_mem (by simp [normWave_rel])]
    simp [nextPresence, presenceOf, segmentCycles]

/-! ### OW_RESET -/

/-- What stands `k` cycles into an accepted OW_RESET, up to the first idle cycle. -/
theorem run_owReset {s : State} (hs : s.seq = []) (h : hostInputAt s 0 = hostWrite 0x00 0x0001) {k : Nat}
    (hk : k ≤ waveCycles (resetWave s.prof)) (hu : UndisturbedFor (1 + k) s) :
    ∃ t, runCycles (1 + k) s = .next t ∧ t.seq = Nat.repeat advanceSeq k (normWave (resetWave s.prof))
      ∧ owPullLow t = decide (k < tRstl s.prof)
      ∧ t.presence = if k ≤ tRstl s.prof + tPds s.prof then s.presence
          else slaveLowAt s (1 + (tRstl s.prof + tPds s.prof)) := by
  obtain ⟨t, ht, hseq, -, -, hpresence, -⟩ :=
    run_loaded k (step_owReset_loads h hs) (shortCounts_resetWave s.prof) hk hu
  refine ⟨t, ht, hseq, ?_, hpresence.trans (playPresence_resetWave_at ..)⟩
  rw [owPullLow, hseq, pullsLow_resetWave]

/-- Settles O44: cycle `k` of the statement is `k - 1` cycles into the waveform accepted in cycle 0, where `run_owReset`
gives the pin and `presence`; there is something left to play until the last cycle. -/
theorem resetPulseAndPresenceCycleByCycle : Obligations.ResetPulseAndPresenceCycleByCycle := by
  intro s hs h H I J hu
  have hcounted := counted_norm (shortCounts_resetWave s.prof)
  have hlen : waveCycles (resetWave s.prof) = H + I + 1 + J := waveCycles_resetWave s.prof
  have hH : tRstl s.prof = H := rfl
  have hI : tPds s.prof = I := rfl
  refine ⟨State.busy_eq_false.2 hs, by rw [owPullLow, hs]; rfl, fun k hk1 hk => ?_, ?_⟩
  · obtain ⟨j, rfl⟩ := Nat.exists_eq_add_of_le hk1
    obtain ⟨t, ht, hseq, hpin, hpresence⟩ :=
      run_owReset hs h (k := j) (by omega) fun i hi => hu i (by omega)
    refine ⟨t, ht, ?_, hpin.trans ?_, hpresence.trans ?_⟩
    · rw [State.busy_eq_true, hseq]
      exact advance_ne_nil hcounted (by rw [waveCycles_norm]; omega)
    · exact decide_eq_decide.2 (by omega)
    · rw [hH, hI, Nat.add_comm 1 j, Nat.add_comm 1 (H + I)]
      simp only [Nat.add_le_add_iff_right]
  · obtain ⟨t, ht, hseq, hpin, hpresence⟩ :=
      run_owReset hs h (Nat.le_refl _) fun i hi => hu i (by omega)
    refine ⟨t, ?_, ?_, hpin.trans ?_, hpresence.trans ?_⟩
    · rw [← ht, hlen]; congr 1; omega
    · exact State.busy_eq_false.2 (hseq.trans (advance_norm_all (shortCounts_resetWave s.prof)))
    · exact decide_eq_false (by omega)
    · rw [if_neg (by omega), hH, hI, Nat.add_comm 1 (H + I)]

end Sys2Proof.Machine
end

section
/-! OW_WRITE_BYTE cycle by cycle: where each slot starts, its hold and its recovery (R110 to R112), and the loopback of a
byte written and read back (R114). -/

namespace Sys2Proof.Machine

/-! ### The slots of a byte -/

/-- The first cycles of a waveform are those of its first segments, zero ones included. -/
theorem advance_norm_append (v w : List Segment) :
    Nat.repeat advanceSeq (waveCycles v) (normWave (v ++ w)) = normWave w := by
  induction v with
  | nil => rfl
  | cons g v ih => rw [waveCycles, List.cons_append, repeat_add, advance_norm_segment, ih]

theorem waveCycles_flatMap {α : Type} (f : α → List Segment) (xs : List α) :
    waveCycles (xs.flatMap f) = (xs.map fun x => waveCycles (f x)).sum := by
  induction xs with
  | nil => rfl
  | cons x xs ih => rw [List.flatMap_cons, waveCycles_append, ih, List.map_cons, List.sum_cons]

/-- The slots of the bits below `i`; those below 8 are the waveform of the byte. -/
def slotsBelow (p : Profile) (b : Byte) (i : Nat) : List Segment :=
  (List.range i).flatMap fun j => writeSlot p (b.getLsbD j)

/-- Slot `i` starts when the slots of the lower bits are over (R112). -/
theorem waveCycles_slotsBelow (p : Profile) (b : Byte) (i : Nat) :
    waveCycles (slotsBelow p b i) = ((List.range i).map fun j =>
      if b.getLsbD j = true then tW1l p + tW1r p else tW0l p + tW0r p).sum := by
  simp only [slotsBelow, waveCycles_flatMap, waveCycles_writeSlot]

theorem writeWave_split (p : Profile) (b : Byte) {i : Nat} (hi : i < 8) :
    ∃ w, writeWave p b = slotsBelow p b i ++ (writeSlot p (b.getLsbD i) ++ w) := by
  have hrange : List.range 8 = List.range i ++ ([i] ++ (List.range (7 - i)).map (i + 1 + ·)) := by
    rw [← List.append_assoc, ← List.range_succ, ← List.range_add]
    congr 1; omega
  refine ⟨((List.range (7 - i)).map (i + 1 + ·)).flatMap fun j => writeSlot p (b.getLsbD j), ?_⟩
  rw [writeWave_eq_slots, hrange, List.flatMap_append, List.flatMap_append, List.flatMap_singleton]
  rfl

/-- Every slot is over when the waveform is. -/
theorem slot_within_writeWave (p : Profile) (b : Byte) {i : Nat} (hi : i < 8) :
    waveCycles (slotsBelow p b i) + waveCycles (writeSlot p (b.getLsbD i)) ≤ waveCycles (writeWave p b) := by
  obtain ⟨w, hw⟩ := writeWave_split p b hi
  rw [hw, waveCycles_append, waveCycles_append]
  omega

/-- The cycles for which the slot of a bit pulls the line low (R111). -/
def writeHold (p : Profile) (x : Bool) : Nat := if x = true then tW1l p else tW0l p

/-- A slot is low for its hold and released for its recovery (R111). -/
theorem pullsLow_writeSlot (p : Profile) (x : Bool) (w : List Segment) {j : Nat} (hj : j < waveCycles (writeSlot p x)) :
    pullsLow (Nat.repeat advanceSeq j (normWave (writeSlot p x ++ w))) = decide (j < writeHold p x) := by
  have hslot (m n : Nat) (hmn : j < m + n) :
      pullsLow (Nat.repeat advanceSeq j (normWave (.low m :: .rel n :: w))) = decide (j < m) := by
    rw [pullsLow_advance_norm]
    by_cases hlow : j < segmentCycles (.low m)
    · rw [if_pos hlow]; exact (decide_eq_true hlow).symm
    · have hrel : j - m < n := by rw [segmentCycles] at hlow; omega
      rw [if_neg hlow, pullsLow_advance_norm]
      exact (if_pos hrel).trans (decide_eq_false hlow).symm
  rw [waveCycles_writeSlot] at hj
  cases x
  · exact hslot _ _ hj
  · exact hslot _ _ hj

/-! ### OW_WRITE_BYTE -/

theorem step_owWriteByte_loads {s : State} {b : Byte}
    (h : hostInputAt s 0 = hostWrite 0x00 (b.setWidth 16 <<< 8 ||| 0x0002)) (hs : s.seq = []) :
    step s = .next (s.loaded (writeWave s.prof b) s.rx) := by
  rw [step_command h (decode_encode (.owWriteByte b)) (exec_owWriteByte_idle hs b), endCycle_idle hs]; rfl

/-- The end of an accepted OW_WRITE_BYTE: idle, the results and the profile as they were, the inputs of the cycles after
it still to come. -/
theorem run_owWriteByte {s : State} {b : Byte} (hs : s.seq = [])
    (h : hostInputAt s 0 = hostWrite 0x00 (b.setWidth 16 <<< 8 ||| 0x0002))
    (hu : UndisturbedFor (1 + waveCycles (writeWave s.prof b)) s) :
    ∃ t, runCycles (1 + waveCycles (writeWave s.prof b)) s = .next t ∧ t.seq = [] ∧ t.prof = s.prof ∧ t.rx = s.rx
      ∧ t.presence = s.presence
      ∧ (∀ j, hostInputAt t j = hostInputAt s (1 + waveCycles (writeWave s.prof b) + j))
      ∧ (∀ j, slaveLowAt t j = slaveLowAt s (1 + waveCycles (writeWave s.prof b) + j)) := by
  have hw := shortCounts_writeWave s.prof b
  obtain ⟨t, ht, hseq, hprof, hrx, hpresence, hinputs⟩ :=
    run_loaded _ (step_owWriteByte_loads h hs) hw (Nat.le_refl _) hu
  refine ⟨t, ht, hseq.trans (advance_norm_all hw), hprof, hrx.trans ?_, hpresence.trans ?_, hinputs⟩
  · exact playRx_of_not_mem (no_sample_in_writeWave (.inr rfl)) ..
  · exact playPresence_of_not_mem (no_sample_in_writeWave (.inl rfl)) ..

/-- What stands `j` cycles into slot `i` of an accepted OW_WRITE_BYTE. -/
theorem run_writeSlot {s : State} {b : Byte} (hs : s.seq = [])
    (h : hostInputAt s 0 = hostWrite 0x00 (b.setWidth 16 <<< 8 ||| 0x0002))
    (hu : UndisturbedFor (1 + waveCycles (writeWave s.prof b)) s) {i j : Nat} (hi : i < 8)
    (hj : j < waveCycles (writeSlot s.prof (b.getLsbD i))) :
    ∃ t, runCycles (1 + waveCycles (slotsBelow s.prof b i) + j) s = .next t ∧ t.busy = true
      ∧ owPullLow t = decide (j < writeHold s.prof (b.getLsbD i))
      ∧ slaveLowAt t 0 = slaveLowAt s (1 + waveCycles (slotsBelow s.prof b i) + j) := by
  have hw := shortCounts_writeWave s.prof b
  have hend := slot_within_writeWave s.prof b hi
  obtain ⟨t, ht, hseq, -, -, -, -, hslave⟩ :=
    run_loaded (waveCycles (slotsBelow s.prof b i) + j) (step_owWriteByte_loads h hs) hw (by omega)
      fun k hk => hu k (by omega)
  rw [← Nat.add_assoc] at ht hslave
  refine ⟨t, ht, ?_, ?_, hslave 0⟩
  · rw [State.busy_eq_true, hseq]
    exact advance_ne_nil (counted_norm hw) (by rw [waveCycles_norm]; omega)
  · obtain ⟨w, hsplit⟩ := writeWave_split s.prof b hi
    rw [owPullLow, hseq, hsplit, repeat_add, advance_norm_append, pullsLow_writeSlot _ _ _ hj]

/-- Settles O45: cycle `k` of slot `i` is `k - start i` cycles into it, where `run_writeSlot` gives `busy` and the pin;
`run_owWriteByte` is the end. -/
theorem writeSlotsCycleByCycle : Obligations.WriteSlotsCycleByCycle := by
  intro s b hs h hold len start hu
  have hstart (i : Nat) : start i = 1 + waveCycles (slotsBelow s.prof b i) :=
    congrArg (1 + ·) (waveCycles_slotsBelow s.prof b i).symm
  have hlen (i : Nat) : len i = waveCycles (writeSlot s.prof (b.getLsbD i)) := (waveCycles_writeSlot ..).symm
  have hhold (i : Nat) : hold i = writeHold s.prof (b.getLsbD i) := rfl
  have hall : start 8 = 1 + waveCycles (writeWave s.prof b) := hstart 8
  rw [hall] at hu ⊢
  constructor
  · intro i k hi hfirst hlast
    obtain ⟨j, rfl⟩ := Nat.exists_eq_add_of_le hfirst
    rw [hlen] at hlast
    obtain ⟨t, ht, hbusy, hpin, -⟩ := run_writeSlot hs h hu hi (Nat.lt_of_add_lt_add_left hlast)
    rw [← hstart] at ht
    rw [hhold]
    exact ⟨t, ht, hbusy, hpin.trans (decide_eq_decide.2 Nat.add_lt_add_iff_left.symm)⟩
  · obtain ⟨t, ht, hseq, -, hrx, hpresence, -⟩ := run_owWriteByte hs h hu
    exact ⟨t, ht, State.busy_eq_false.2 hseq, hrx, hpresence⟩

/-! ### The loopback (R114) -/

/-- The level noted `S` cycles into a slot is the slot's bit: the hold of a 1 is over by then and that of a 0 is not, and
nobody else pulls the line. -/
theorem owIn_in_writeSlot {s t : State} {x : Bool} {S : Nat} (h1 : tW1l s.prof ≤ S) (h0 : S < tW0l s.prof)
    (hpin : owPullLow t = decide (S < writeHold s.prof x)) (hfree : slaveLowAt t 0 = false) : owIn t = x := by
  rw [owIn, hfree, hpin]
  cases x
  · rw [decide_eq_true (show S < writeHold s.prof false from h0)]; rfl
  · rw [decide_eq_false (show ¬ S < writeHold s.prof true from Nat.not_lt.2 h1)]; rfl

/-- An accepted OW_READ_BYTE ends idle, with the level of slot `i` in bit `i` (R122). -/
theorem run_owReadByte {s : State} (hs : s.seq = []) (h : hostInputAt s 0 = hostWrite 0x00 0x0003)
    (hu : UndisturbedFor (1 + 8 * slotCycles s.prof) s) :
    ∃ t, runCycles (1 + 8 * slotCycles s.prof) s = .next t ∧ t.seq = []
      ∧ ∀ i, i < 8 → t.rx.getLsbD i = !slaveLowAt s (1 + (i * slotCycles s.prof + tRdl s.prof + tRds s.prof)) := by
  rw [← waveCycles_readWave] at hu ⊢
  have hw := shortCounts_readWave s.prof
  obtain ⟨t, ht, hseq, -, hrx, -⟩ := run_loaded _ (step_owReadByte_loads h hs) hw (Nat.le_refl _) hu
  refine ⟨t, ht, hseq.trans (advance_norm_all hw), fun i hi => ?_⟩
  rw [hrx, ← playRx_readWave s.prof 0 (fun j => slaveLowAt s (1 + j)) 0x00 hi, Nat.add_zero]

/-- Settles O49: the byte read back has in bit `i` the level noted in write slot `i`, which is bit `i` of the byte
written. -/
theorem loopbackReproducesTheByte : Obligations.LoopbackReproducesTheByte := by
  intro s b S hs h len start L h1 h0 hin hu hread hfree hecho
  have hstart (i : Nat) : start i = 1 + waveCycles (slotsBelow s.prof b i) :=
    congrArg (1 + ·) (waveCycles_slotsBelow s.prof b i).symm
  have hall : start 8 = 1 + waveCycles (writeWave s.prof b) := hstart 8
  have hL : slotCycles s.prof = L := rfl
  have hnoted (i : Nat) (hi : i < 8) : ∃ t, runCycles (start i + S) s = .next t ∧ owIn t = b.getLsbD i := by
    have hS : S < waveCycles (writeSlot s.prof (b.getLsbD i)) := by
      rw [waveCycles_writeSlot]
      split
      · exact hin
      · exact Nat.lt_add_right _ h0
    have hend := slot_within_writeWave s.prof b hi
    obtain ⟨t, ht, -, hpin, hslave⟩ := run_writeSlot hs h (fun k hk => hu k (by omega)) hi hS
    have hquiet := hfree (1 + waveCycles (slotsBelow s.prof b i) + S) (by omega)
    rw [hstart]
    exact ⟨t, ht, owIn_in_writeSlot h1 h0 hpin (hslave.trans hquiet)⟩
  obtain ⟨t, ht, hidle, hprof, -, -, hhost, hslave⟩ := run_owWriteByte hs h fun k hk => hu k (by omega)
  rw [← hall] at ht hhost hslave
  obtain ⟨u, hrun, hend, hrx⟩ := run_owReadByte hidle ((hhost 0).trans hread) fun k hk => by
    rw [hprof, hL] at hk
    rw [hhost]
    exact hu _ (by omega)
  rw [hprof, hL] at hrun hrx
  refine ⟨u, ?_, State.busy_eq_false.2 hend, BitVec.eq_of_getLsbD_eq fun i hi => ?_⟩
  · rw [Nat.add_assoc, runCycles_add, ht]; exact hrun
  · obtain ⟨v, hv, hlevel⟩ := hnoted i hi
    have hsample := hecho i v hi hv
    rw [hrx i hi, hslave, ← Nat.add_assoc, ← Nat.add_assoc, ← Nat.add_assoc]
    exact (congrArg (!·) hsample).trans ((Bool.not_not _).trans hlevel)

end Sys2Proof.Machine
end

section
/-! OW_READ_BYTE cycle by cycle: where each slot starts, its low pulse and its one sample (R121), and the byte in `rx`
after each sample (R122). -/

namespace Sys2Proof.Machine

/-! ### The slots of a byte read -/

/-- The waveform after `n` of its slots. -/
theorem readWave_split (p : Profile) {n : Nat} (hn : n ≤ 8) :
    readWave p = (List.replicate n (readSlot p)).flatten ++ (List.replicate (8 - n) (readSlot p)).flatten := by
  rw [← List.flatten_append, List.replicate_append_replicate, Nat.add_sub_cancel' hn, readWave]

/-- Slot `i` starts when `i` slots are over (R121). -/
theorem advance_readWave (p : Profile) {i : Nat} (hi : i < 8) (j : Nat) :
    ∃ w, Nat.repeat advanceSeq (i * slotCycles p + j) (normWave (readWave p))
      = Nat.repeat advanceSeq j (normWave (readSlot p ++ w)) := by
  refine ⟨(List.replicate (7 - i) (readSlot p)).flatten, ?_⟩
  rw [repeat_add, readWave_split p (Nat.le_of_lt hi), ← waveCycles_readSlots, advance_norm_append,
    show 8 - i = (7 - i) + 1 by omega, List.replicate_succ, List.flatten_cons]

/-- Every slot is over when the waveform is. -/
theorem slot_within_readWave (p : Profile) {i : Nat} (hi : i < 8) :
    i * slotCycles p + slotCycles p ≤ waveCycles (readWave p) := by
  rw [waveCycles_readWave, ← Nat.succ_mul]
  exact Nat.mul_le_mul_right _ hi

/-- The head `j` cycles into a read slot: LOW for T_RDL cycles, then REL, but for the one SAMPLE_D cycle T_RDL + T_RDS
(R121). -/
theorem readSlot_head (p : Profile) (w : List Segment) {j : Nat} (hj : j < slotCycles p) :
    ∃ g v, Nat.repeat advanceSeq j (normWave (readSlot p ++ w)) = g :: v
      ∧ ((j < tRdl p ∧ ∃ n, g = .low n)
        ∨ (tRdl p ≤ j ∧ j ≠ tRdl p + tRds p ∧ ∃ n, g = .rel n)
        ∨ (j = tRdl p + tRds p ∧ g = .sampleD)) := by
  have happ : readSlot p ++ w = .low (tRdl p) :: .rel (tRds p) :: .sampleD :: .rel (tRdr p) :: w := rfl
  rw [slotCycles] at hj
  rw [happ]
  by_cases hlow : j < tRdl p
  · exact ⟨_, _, advance_norm_low _ hlow, .inl ⟨hlow, _, rfl⟩⟩
  obtain ⟨i, rfl⟩ := Nat.exists_eq_add_of_le (Nat.le_of_not_lt hlow)
  rw [repeat_add, advance_norm_low_all]
  by_cases hdelay : i < tRds p
  · exact ⟨_, _, advance_norm_rel _ hdelay, .inr (.inl ⟨by omega, by omega, _, rfl⟩)⟩
  obtain ⟨m, rfl⟩ := Nat.exists_eq_add_of_le (Nat.le_of_not_lt hdelay)
  rw [repeat_add, advance_norm_rel_all, normWave_sampleD]
  cases m with
  | zero => exact ⟨_, _, rfl, .inr (.inr ⟨rfl, rfl⟩)⟩
  | succ m =>
    rw [repeat_succ']
    exact ⟨_, _, advance_norm_rel _ (by omega), .inr (.inl ⟨by omega, by omega, _, rfl⟩)⟩

/-- A read slot is low for its first T_RDL cycles and released for the rest (R121). -/
theorem pullsLow_readSlot (p : Profile) (w : List Segment) {j : Nat} (hj : j < slotCycles p) :
    pullsLow (Nat.repeat advanceSeq j (normWave (readSlot p ++ w))) = decide (j < tRdl p) := by
  obtain ⟨g, v, hseq, ⟨hlow, n, rfl⟩ | ⟨hrel, -, n, rfl⟩ | ⟨rfl, rfl⟩⟩ := readSlot_head p w hj
  · rw [hseq, decide_eq_true hlow]; rfl
  · rw [hseq, decide_eq_false (Nat.not_lt.2 hrel)]; rfl
  · rw [hseq, decide_eq_false (Nat.not_lt.2 (Nat.le_add_right _ _))]; rfl

/-- The one sample of a read slot comes T_RDL + T_RDS cycles into it (R121). -/
theorem sampleD_readSlot (p : Profile) (w : List Segment) {j : Nat} (hj : j < slotCycles p) :
    (∃ v, Nat.repeat advanceSeq j (normWave (readSlot p ++ w)) = .sampleD :: v) ↔ j = tRdl p + tRds p := by
  obtain ⟨g, v, hseq, ⟨hlow, n, rfl⟩ | ⟨-, hne, n, rfl⟩ | ⟨hat, rfl⟩⟩ := readSlot_head p w hj
  · simp [hseq, show j ≠ tRdl p + tRds p by omega]
  · simp [hseq, hne]
  · exact iff_of_true ⟨v, hseq⟩ hat

/-! ### The cycles of OW_READ_BYTE -/

theorem no_sampleP_in_readWave (p : Profile) : Segment.sampleP ∉ normWave (readWave p) := by
  intro h
  have hmem := List.mem_of_mem_filter h
  simp [readWave, readSlot] at hmem

/-- What stands `j` cycles into slot `i` of an accepted OW_READ_BYTE. -/
theorem run_readSlot {s : State} (hs : s.seq = []) (h : hostInputAt s 0 = hostWrite 0x00 0x0003)
    (hu : UndisturbedFor (1 + 8 * slotCycles s.prof) s) {i j : Nat} (hi : i < 8) (hj : j < slotCycles s.prof) :
    ∃ t, runCycles (1 + i * slotCycles s.prof + j) s = .next t ∧ t.busy = true
      ∧ owPullLow t = decide (j < tRdl s.prof)
      ∧ ((∃ w, t.seq = .sampleD :: w) ↔ j = tRdl s.prof + tRds s.prof) := by
  have hw := shortCounts_readWave s.prof
  have hend := slot_within_readWave s.prof hi
  rw [← waveCycles_readWave] at hu
  obtain ⟨t, ht, hseq, -⟩ :=
    run_loaded (i * slotCycles s.prof + j) (step_owReadByte_loads h hs) hw (by omega) fun k hk => hu k (by omega)
  rw [← Nat.add_assoc] at ht
  have hbusy : t.busy = true := by
    rw [State.busy_eq_true, hseq]
    exact advance_ne_nil (counted_norm hw) (by rw [waveCycles_norm]; omega)
  obtain ⟨w, hslot⟩ := advance_readWave s.prof hi j
  rw [hslot] at hseq
  refine ⟨t, ht, hbusy, ?_, ?_⟩
  · rw [owPullLow, hseq, pullsLow_readSlot _ _ hj]
  · rw [hseq, sampleD_readSlot _ _ hj]

/-- Settles O46: cycle `k` of slot `i` is `k - (1 + i * L)` cycles into it, where `run_readSlot` gives `busy`, the pin and
the sample; no cycle of the waveform samples presence. -/
theorem readSlotsCycleByCycle : Obligations.ReadSlotsCycleByCycle := by
  intro s hs h L hu
  constructor
  · intro i k hi hfirst hlast
    obtain ⟨j, rfl⟩ := Nat.exists_eq_add_of_le hfirst
    have hj : j < L := by rw [Nat.succ_mul] at hlast; omega
    obtain ⟨t, ht, hbusy, hpin, hsample⟩ := run_readSlot hs h hu hi hj
    refine ⟨t, ht, hbusy, hpin.trans (decide_eq_decide.2 Nat.add_lt_add_iff_left.symm), hsample.trans ?_⟩
    rw [Nat.add_assoc (1 + i * L), Nat.add_left_cancel_iff]; rfl
  · have hw := shortCounts_readWave s.prof
    have hlen : waveCycles (readWave s.prof) = 8 * L := waveCycles_readWave s.prof
    rw [← hlen] at hu ⊢
    obtain ⟨t, ht, hseq, -, -, hpresence, -⟩ := run_loaded _ (step_owReadByte_loads h hs) hw (Nat.le_refl _) hu
    have hidle : t.seq = [] := hseq.trans (advance_norm_all hw)
    refine ⟨t, ht, State.busy_eq_false.2 hidle, ?_, hpresence.trans ?_⟩
    · rw [owPullLow, hidle]; rfl
    · exact playPresence_of_not_mem (no_sampleP_in_readWave _) ..

/-! ### The byte under assembly (R122) -/

/-- What follows a waveform has no part in what its own cycles leave in `rx`. -/
theorem playRx_norm_append (v w : List Segment) (sl : Nat → Bool) (r : Byte) :
    playRx (waveCycles v) (normWave (v ++ w)) sl r = playRx (waveCycles v) (normWave v) sl r := by
  induction v generalizing sl r with
  | nil => rfl
  | cons g v ih => rw [waveCycles, List.cons_append, playRx_segment, playRx_segment, ih]

/-- From its sample to its end a slot leaves `rx` alone. -/
theorem playRx_after_sample (p : Profile) {j : Nat} (hj : j < 8) (sl : Nat → Bool) (r : Byte) :
    playRx (j * slotCycles p + (tRdl p + tRds p) + 1) (normWave (readWave p)) sl r
      = playRx ((j + 1) * slotCycles p) (normWave (readWave p)) sl r := by
  have hlen : (j + 1) * slotCycles p = j * slotCycles p + (tRdl p + tRds p) + 1 + tRdr p := by
    rw [Nat.succ_mul, slotCycles]; omega
  rw [hlen, playRx_add _ (tRdr p)]
  refine (playRx_quiet (fun i hi v hv => ?_) _ _).symm
  obtain ⟨w, hslot⟩ := advance_readWave p hj (tRdl p + tRds p + 1 + i)
  have hsum : j * slotCycles p + (tRdl p + tRds p) + 1 + i = j * slotCycles p + (tRdl p + tRds p + 1 + i) := by omega
  rw [← repeat_add, hsum, hslot] at hv
  have hat := (sampleD_readSlot p w (by rw [slotCycles]; omega)).1 ⟨v, hv⟩
  omega

/-- After the sample of slot `j` the top `j + 1` bits of `rx` are the samples taken, the earliest lowest, and the bits
below them are what stood above (R122). -/
theorem playRx_readWave_sample (p : Profile) (sl : Nat → Bool) (r : Byte) {j m : Nat} (hj : j < 8) (hm : m < 8) :
    (playRx (j * slotCycles p + (tRdl p + tRds p) + 1) (normWave (readWave p)) sl r).getLsbD m
      = if m + (j + 1) < 8 then r.getLsbD (m + (j + 1))
        else !sl ((m + (j + 1) - 8) * slotCycles p + tRdl p + tRds p) := by
  rw [playRx_after_sample p hj, readWave_split p (n := j + 1) hj, ← waveCycles_readSlots, playRx_norm_append,
    waveCycles_readSlots]
  exact playRx_readSlots p (j + 1) 0 sl r hj hm

/-- `rx` after the sample of slot `j` of an accepted OW_READ_BYTE, which starts from 0. -/
theorem run_readSample {s : State} (hs : s.seq = []) (h : hostInputAt s 0 = hostWrite 0x00 0x0003)
    (hu : UndisturbedFor (1 + 8 * slotCycles s.prof) s) {j : Nat} (hj : j < 8) :
    ∃ t, runCycles (1 + (j * slotCycles s.prof + (tRdl s.prof + tRds s.prof) + 1)) s = .next t
      ∧ ∀ m, m < 8 → t.rx.getLsbD m = if m + (j + 1) < 8 then false
          else !slaveLowAt s (1 + ((m + (j + 1) - 8) * slotCycles s.prof + tRdl s.prof + tRds s.prof)) := by
  have hsample := readSample_lt (p := s.prof) hj
  rw [← waveCycles_readWave] at hu
  obtain ⟨t, ht, -, -, hrx, -⟩ := run_loaded (j * slotCycles s.prof + (tRdl s.prof + tRds s.prof) + 1)
    (step_owReadByte_loads h hs) (shortCounts_readWave s.prof) (by omega) fun k hk => hu k (by omega)
  refine ⟨t, ht, fun m hm => ?_⟩
  simp [hrx, playRx_readWave_sample s.prof _ _ hj hm]

/-- Settles O47: `run_readSample` at the two ranges of bits, and `run_owReadByte` at the end. -/
theorem readByteIsAssembledFirstBitLowest : Obligations.ReadByteIsAssembledFirstBitLowest := by
  intro s hs h L sample hu
  have hsample (i : Nat) : sample i = 1 + (i * slotCycles s.prof + tRdl s.prof + tRds s.prof) := by
    show 1 + i * L + tRdl s.prof + tRds s.prof = 1 + (i * L + tRdl s.prof + tRds s.prof)
    omega
  refine ⟨fun j hj => ?_, ?_⟩
  · obtain ⟨t, ht, hrx⟩ := run_readSample hs h hu hj
    refine ⟨t, ?_, fun i hi => ?_, fun m hm => ?_⟩
    · rw [← ht, hsample]; congr 1; omega
    · rw [hrx _ (by omega), if_neg (by omega), hsample, show 7 - j + i + (j + 1) - 8 = i by omega]
    · rw [hrx _ (by omega), if_pos (by omega)]
  · obtain ⟨t, ht, hseq, hrx⟩ := run_owReadByte hs h hu
    exact ⟨t, ht, State.busy_eq_false.2 hseq, fun i hi => by rw [hrx i hi, hsample]⟩

end Sys2Proof.Machine
end

section
/-! The CRC unit (44_crc.md): the checksum as an injective fold, its three commands, and the runs of commands that compute
a checksum and validate it (R131 to R138). -/

namespace Sys2Proof.Machine

/-! ### The fold (R132, R134) -/

theorem repeat_injective {α : Type} {f : α → α} (hf : Function.Injective f) (n : Nat) :
    Function.Injective (Nat.repeat f n) := by
  induction n with
  | zero => exact Function.injective_id
  | succ n ih => exact hf.comp ih

/-- Eight shift steps can be undone, so the folded value is all that counts. -/
theorem crcUpd_eq_iff {c d a b : Byte} : crcUpd c a = crcUpd d b ↔ c ^^^ a = d ^^^ b :=
  (repeat_injective (fun _ _ => crcShift_injective) 8).eq_iff

theorem crcUpd_self (c : Byte) : crcUpd c c = 0x00 := by
  rw [crcUpd, BitVec.xor_self]
  decide

/-- Only the checksum itself folds it to zero (R136). -/
theorem crcUpd_eq_zero_iff {c x : Byte} : crcUpd c x = 0x00 ↔ x = c := by
  rw [← crcUpd_self c, crcUpd_eq_iff, BitVec.xor_right_inj]

theorem foldl_crcUpd_injective (bs : List Byte) : Function.Injective (bs.foldl crcUpd) := by
  induction bs with
  | nil => exact Function.injective_id
  | cons b bs ih => exact fun c d h => (BitVec.xor_left_inj b).1 (crcUpd_eq_iff.1 (ih h))

theorem checksum_append (bs cs : List Byte) : checksum (bs ++ cs) = cs.foldl crcUpd (checksum bs) := List.foldl_append

theorem checksum_concat (bs : List Byte) (b : Byte) : checksum (bs ++ [b]) = crcUpd (checksum bs) b :=
  checksum_append bs [b]

theorem checksum_concat_eq_zero_iff {bs : List Byte} {x : Byte} : checksum (bs ++ [x]) = 0x00 ↔ x = checksum bs := by
  rw [checksum_concat, crcUpd_eq_zero_iff]

/-- Two sequences that differ in one byte have different checksums. -/
theorem eq_of_checksum_eq {bs cs : List Byte} {a b : Byte} (h : checksum (bs ++ a :: cs) = checksum (bs ++ b :: cs)) :
    a = b := by
  rw [checksum_append, checksum_append] at h
  exact (BitVec.xor_right_inj _).1 (crcUpd_eq_iff.1 (foldl_crcUpd_injective cs h))

theorem xor_twoPow_ne (b : Byte) {j : Nat} (hj : j < 8) : b ^^^ BitVec.twoPow 8 j ≠ b := by
  intro h
  have hbit := congrArg (·.getLsbD j) h
  simp [hj] at hbit

/-- Settles O53: a flipped bit changes its byte, and the checksum is injective in each byte; two sequences that each end
in their own checksum both have the checksum zero. -/
theorem everySingleBitCorruptionIsDetected : Obligations.EverySingleBitCorruptionIsDetected := by
  refine ⟨fun bs i j hi hj h => ?_, [0x00] ++ [checksum [0x00]], [0x01] ++ [checksum [0x01]], rfl, by simp, ?_⟩
  · refine xor_twoPow_ne bs[i] hj (eq_of_checksum_eq (bs := bs.take i) (cs := bs.drop (i + 1)) ?_)
    rw [List.getElem_cons_drop, List.take_append_drop, ← h, List.set_eq_take_append_cons_drop, if_pos hi]
  · rw [checksum_concat_eq_zero_iff.2 rfl, checksum_concat_eq_zero_iff.2 rfl]

/-! ### The three commands -/

/-- Settles O11: the word is the whole of 0x0004, and `exec_crcClear`. -/
theorem crcClearZeroesTheChecksum : Obligations.CrcClearZeroesTheChecksum :=
  ⟨fun _ => decode_eq_ok_iff.trans eq_iff_whole_word, exec_crcClear⟩

/-- Settles O12: the low byte selects the command, and `crcUpd` is eight shift steps as R132 writes them. -/
theorem crcUpdateFoldsOneByte : Obligations.CrcUpdateFoldsOneByte := by
  refine ⟨fun _ _ => decode_eq_ok_iff.trans commandWord_eq_iff, fun sh hsh s b => ?_⟩
  obtain rfl : sh = crcShift := funext hsh
  exact exec_crcUpdate b s

/-- Settles O13: the low byte selects the command, the flag is the equality, and CRC_CLEAR and CRC_UPDATE write `crc`. -/
theorem crcCheckSetsTheMatchFlag : Obligations.CrcCheckSetsTheMatchFlag := by
  refine ⟨fun _ _ => decode_eq_ok_iff.trans commandWord_eq_iff, fun s b => ?_, fun s t b h => ?_⟩
  · rw [exec_crcCheck, crcMatchOf, beq_eq_decide, Bool.if_true_left, Bool.or_false]; rfl
  · rcases h with h | h <;> cases h <;> rfl

/-! ### Commands in consecutive cycles (R134 to R136) -/

/-- The cycle of a listed command: its effect on the CRC unit, the profile and `cmderr`, whatever the sequencer does, and
the commands after it still to come. -/
theorem step_nextCommand {s t : State} {i : Instr} {is : List Instr} (h : s.NextCommands (i :: is))
    (he : exec i s = .next t) :
    ∃ u, step s = .next u ∧ u.NextCommands is ∧ u.crc = t.crc ∧ u.crcMatch = t.crcMatch ∧ u.cmderr = t.cmderr
      ∧ u.prof = t.prof := by
  obtain ⟨rest, hin⟩ := h
  have h0 : hostInputAt s 0 = hostWrite 0x00 (encode i) := by rw [hostInputAt, hin]; rfl
  obtain ⟨hhost, -⟩ := hostWrites_inputs (.command _ i t h0 (decode_encode i) he)
  refine ⟨endCycle s t, step_command h0 (decode_encode i) he, ⟨rest, ?_⟩, endCycle_crc s t, endCycle_crcMatch s t,
    endCycle_cmderr s t, endCycle_prof s t⟩
  rw [endCycle_hostInputs, hhost, hin]; rfl

/-- One CRC_UPDATE per byte, the commands `is` after them. -/
theorem run_crcUpdates (bs : List Byte) {s : State} {is : List Instr}
    (h : s.NextCommands (bs.map .crcUpdate ++ is)) :
    ∃ t, runCycles bs.length s = .next t ∧ t.NextCommands is ∧ t.crc = bs.foldl crcUpd s.crc
      ∧ t.crcMatch = s.crcMatch ∧ t.cmderr = s.cmderr ∧ t.prof = s.prof := by
  induction bs generalizing s with
  | nil => exact ⟨s, rfl, h, rfl, rfl, rfl, rfl⟩
  | cons b bs ih =>
    obtain ⟨u, hu, hnext, hcrc, hmatch, herr, hprof⟩ := step_nextCommand h (exec_crcUpdate b s)
    obtain ⟨t, ht, hnext', hcrc', hmatch', herr', hprof'⟩ := ih hnext
    refine ⟨t, ?_, hnext', ?_, hmatch'.trans hmatch, herr'.trans herr, hprof'.trans hprof⟩
    · rw [List.length_cons, runCycles_succ, hu]; exact ht
    · rw [hcrc', hcrc]; rfl

/-- CRC_CLEAR, one CRC_UPDATE per byte, the commands `is` after them (R134). -/
theorem run_checksum (bs : List Byte) {s : State} {is : List Instr}
    (h : s.NextCommands (.crcClear :: bs.map .crcUpdate ++ is)) :
    ∃ t, runCycles (bs.length + 1) s = .next t ∧ t.NextCommands is ∧ t.crc = checksum bs
      ∧ t.crcMatch = s.crcMatch ∧ t.cmderr = s.cmderr ∧ t.prof = s.prof := by
  obtain ⟨u, hu, hnext, hcrc, hmatch, herr, hprof⟩ := step_nextCommand h (exec_crcClear s)
  obtain ⟨t, ht, hnext', hcrc', hmatch', herr', hprof'⟩ := run_crcUpdates bs hnext
  refine ⟨t, ?_, hnext', ?_, hmatch'.trans hmatch, herr'.trans herr, hprof'.trans hprof⟩
  · rw [runCycles_succ, hu]; exact ht
  · rw [hcrc', hcrc]; rfl

/-- The checksum of the bytes, and CRC_CHECK of `x` (R135, R136). -/
theorem run_validation (bs : List Byte) (x : Byte) {s : State}
    (h : s.NextCommands (.crcClear :: bs.map .crcUpdate ++ [.crcCheck x])) :
    ∃ t, runCycles (bs.length + 2) s = .next t ∧ (t.crcMatch = true ↔ checksum bs = x) := by
  obtain ⟨t, ht, hnext, hcrc, -⟩ := run_checksum bs h
  obtain ⟨u, hu, -, -, hmatch, -⟩ := step_nextCommand hnext (exec_crcCheck x t)
  refine ⟨u, ?_, ?_⟩
  · rw [runCycles_add (bs.length + 1) 1, ht, andThen, runCycles_succ, hu]; rfl
  · rw [hmatch, State.setCrcMatch_crcMatch, hcrc, crcMatchOf, beq_iff_eq]

/-- Settles O50: the recursion of the fold, and `run_checksum` with no command after it. -/
theorem commandSequenceComputesTheChecksum : Obligations.CommandSequenceComputesTheChecksum := by
  refine ⟨⟨rfl, checksum_concat⟩, fun s bs h => ?_⟩
  obtain ⟨t, ht, -, hresult⟩ := run_checksum bs (is := []) (by rwa [List.append_nil])
  exact ⟨t, ht, hresult⟩

/-- Settles O51: `run_validation` for seven bytes. -/
theorem addressValidation : Obligations.AddressValidation :=
  fun _ a0 a1 a2 a3 a4 a5 a6 a7 h => run_validation [a0, a1, a2, a3, a4, a5, a6] a7 h

/-- Eight bytes are the first seven and the eighth. -/
theorem take_seven_append {a : List Byte} (ha : a.length = 8) : a.take 7 ++ [a.getD 7 0] = a := by
  rw [List.getD_eq_getElem a 0 (by omega), List.take_append_getElem, List.take_of_length_le (Nat.le_of_eq ha)]

/-- Settles O52: the checksum of all eight bytes is zero when the eighth is the checksum of the others, and CRC_CHECK of
0x00 asks for that. -/
theorem foldingTheChecksumInGivesZero : Obligations.FoldingTheChecksumInGivesZero := by
  refine ⟨crcUpd_self, fun bs x => checksum_concat_eq_zero_iff, fun s a ha h => ?_⟩
  obtain ⟨t, ht, hmatch⟩ := run_validation a 0x00 h
  rw [ha] at ht
  refine ⟨t, ht, hmatch.trans ?_⟩
  rw [eq_comm (a := checksum (a.take 7)), ← checksum_concat_eq_zero_iff, take_seven_append ha]

end Sys2Proof.Machine
end

section
/-! The address read with a device present (45_transactions.md R146): what each part of the script leaves for the next,
and the bytes, their validation and the cycles of the whole. -/

namespace Sys2Proof.Machine

/-! ### Script parts that end idle -/

/-- `t` is idle, `n` cycles after `s`, with the profile of `s` and the rest of the environment's choices still to come:
what one part of a transaction leaves for the next. -/
structure IdleAfter (n : Nat) (s t : State) : Prop where
  idle : t.seq = []
  cycle : t.cycle = s.cycle + n
  line : ∀ j, slaveLowAt t j = slaveLowAt s (n + j)
  prof : t.prof = s.prof

theorem IdleAfter.refl {s : State} (hs : s.seq = []) : IdleAfter 0 s s :=
  ⟨hs, rfl, fun j => by rw [Nat.zero_add], rfl⟩

theorem IdleAfter.trans {m n : Nat} {s t u : State} (h : IdleAfter m s t) (h' : IdleAfter n t u) :
    IdleAfter (m + n) s u :=
  ⟨h'.idle, by rw [h'.cycle, h.cycle, Nat.add_assoc], fun j => by rw [h'.line, h.line, Nat.add_assoc],
    h'.prof.trans h.prof⟩

theorem idleAfter_read {s : State} (hs : s.seq = []) (idx : Index) :
    IdleAfter 1 s (s.present (hostRead idx)).popInputs :=
  ⟨hs, rfl, fun j => by rw [Nat.add_comm]; exact slaveLowAt_of_tail rfl rfl j, rfl⟩

theorem CallEnds.idleAfter {s t : State} {w : List Segment} {r : Byte} (h : CallEnds s w r t) :
    IdleAfter (waveCycles w + 2) s t :=
  ⟨h.idle, h.cycle, h.line, h.prof⟩

theorem CallEnds.then_read {s t : State} {w : List Segment} {r : Byte} (h : CallEnds s w r t) (idx : Index) :
    IdleAfter (waveCycles w + 3) s (t.present (hostRead idx)).popInputs :=
  h.idleAfter.trans (idleAfter_read h.idle idx)

/-- The presence detect with a device present: the transaction goes on (R141). -/
theorem ifPresent_present {s : State} (hs : s.seq = [])
    (hdevice : slaveLowAt s (1 + tRstl s.prof + tPds s.prof) = true) :
    ∃ t, IdleAfter (waveCycles (resetWave s.prof) + 3) s t
      ∧ ∀ {α : Type} (rest : State → Host.Outcome (State × α) Fault Refusal),
        ifPresent s rest = andThen (rest t) fun r => .next (r.1, some r.2) := by
  obtain ⟨t, ht, h⟩ := callReset_ends hs
  refine ⟨_, h.then_read 0x01, fun rest => ?_⟩
  have hpresent : presenceRead (t.present (hostRead 0x01)).popInputs = true := by
    rw [presenceRead_eq]
    exact h.presence_reset.trans hdevice
  rw [ifPresent, ht, andThen, hpresent, if_pos rfl]

/-! ### The bytes received -/

/-- The bytes of `n` calls of CALL_READ: bit `j` of byte `i` is the level of slot `j` of read `i`, counted from `s`. -/
def SampledBytes (s : State) (n : Nat) (bytes : List Byte) : Prop :=
  bytes.length = n ∧ ∀ i j, i < n → j < 8 → (bytes.getD i 0).getLsbD j =
    !slaveLowAt s (i * (waveCycles (readWave s.prof) + 3) + 1 + j * slotCycles s.prof + tRdl s.prof + tRds s.prof)

/-- `CALL_READ` with the byte it returns (R69). -/
theorem callRead_sampled {s : State} (hs : s.seq = []) :
    ∃ t, runScript callRead s = .next t ∧ IdleAfter (waveCycles (readWave s.prof) + 3) s t
      ∧ ∀ j, j < 8 → ((readRegister t 0x02).setWidth 8).getLsbD j
        = !slaveLowAt s (1 + j * slotCycles s.prof + tRdl s.prof + tRds s.prof) := by
  obtain ⟨t, ht, h⟩ := callRead_ends hs
  refine ⟨_, ht, h.then_read 0x02, fun j hj => ?_⟩
  rw [BitVec.getLsbD_setWidth, decide_eq_true hj, Bool.true_and, readRegister_rx_bit _ hj]
  exact h.rx_read hj

/-- A byte read first moves the later ones one call on. -/
theorem sampledBytes_cons {s t : State} {n : Nat} {b : Byte} {bytes : List Byte}
    (ht : IdleAfter (waveCycles (readWave s.prof) + 3) s t)
    (hb : ∀ j, j < 8 → b.getLsbD j = !slaveLowAt s (1 + j * slotCycles s.prof + tRdl s.prof + tRds s.prof))
    (h : SampledBytes t n bytes) : SampledBytes s (n + 1) (b :: bytes) := by
  obtain ⟨hlen, hbits⟩ := h
  refine ⟨congrArg (· + 1) hlen, fun i j hi hj => ?_⟩
  cases i with
  | zero => rw [Nat.zero_mul, Nat.zero_add]; exact hb j hj
  | succ i =>
    rw [List.getD_cons_succ, hbits i j (Nat.lt_of_succ_lt_succ hi) hj, ht.line, ht.prof]
    refine congrArg (!slaveLowAt s ·) ?_
    ring

theorem readBytes_ends (n : Nat) {s : State} (hs : s.seq = []) :
    ∃ t bytes, readBytes n s = .next (t, bytes) ∧ IdleAfter (n * (waveCycles (readWave s.prof) + 3)) s t
      ∧ SampledBytes s n bytes := by
  induction n generalizing s with
  | zero =>
    refine ⟨s, [], rfl, ?_, rfl, fun i _ hi => absurd hi (Nat.not_lt_zero i)⟩
    rw [Nat.zero_mul]
    exact .refl hs
  | succ n ih =>
    obtain ⟨t, ht, hafter, hbyte⟩ := callRead_sampled hs
    obtain ⟨u, bytes, hu, hafter', hbytes⟩ := ih hafter.idle
    refine ⟨u, _, ?_, ?_, sampledBytes_cons hafter hbyte hbytes⟩
    · rw [readBytes, ht, andThen, hu]; rfl
    · rw [Nat.succ_mul, Nat.add_comm]
      rw [hafter.prof] at hafter'
      exact hafter.trans hafter'

/-! ### The validation (R135) -/

/-- A command that is no bus command, in an idle state: its effect on the CRC unit, one cycle on. -/
theorem runStmt_crcCommand_idle {s t : State} {i : Instr} (hs : s.seq = []) (hi : i.needsIdle = false)
    (he : exec i (s.present (hostWrite 0x00 (encode i))) = .next t) :
    ∃ u, runStmt (.command i) s = .next u ∧ IdleAfter 1 s u ∧ u.crc = t.crc ∧ u.crcMatch = t.crcMatch := by
  refine ⟨t.popInputs, runStmt_command_idle hs he, ?_, rfl, rfl⟩
  have hline (j : Nat) : slaveLowAt s (j + 1) = slaveLowAt s (1 + j) := congrArg _ (Nat.add_comm j 1)
  cases i <;> cases hi
  all_goals
    cases he
    exact ⟨hs, rfl, fun j => (slaveLowAt_of_tail rfl rfl j).trans (hline j), rfl⟩

theorem runScript_crcUpdates (bs : List Byte) {s : State} (hs : s.seq = []) :
    ∃ t, runScript (bs.map fun b => .command (.crcUpdate b)) s = .next t ∧ IdleAfter bs.length s t
      ∧ t.crc = bs.foldl crcUpd s.crc := by
  induction bs generalizing s with
  | nil => exact ⟨s, rfl, .refl hs, rfl⟩
  | cons b bs ih =>
    obtain ⟨t, ht, hafter, hcrc, -⟩ := runStmt_crcCommand_idle hs rfl (exec_crcUpdate b _)
    obtain ⟨u, hu, hafter', hcrc'⟩ := ih hafter.idle
    refine ⟨u, ?_, ?_, ?_⟩
    · rw [List.map_cons, runScript, ht]; exact hu
    · rw [List.length_cons, Nat.add_comm]
      exact hafter.trans hafter'
    · rw [hcrc', hcrc]; rfl

/-- The validation of `a` with expected checksum `x`, one cycle per command. -/
theorem runScript_validation (a : List Byte) (x : Byte) {s : State} (hs : s.seq = []) :
    ∃ t, runScript (validation a x) s = .next t ∧ IdleAfter (a.length + 2) s t ∧ t.crc = checksum a
      ∧ (t.crcMatch = true ↔ checksum a = x) := by
  obtain ⟨t, ht, hafter, hcrc, -⟩ := runStmt_crcCommand_idle hs rfl (exec_crcClear _)
  obtain ⟨u, hu, hafter', hcrc'⟩ := runScript_crcUpdates a hafter.idle
  obtain ⟨v, hv, hafter'', hcrc'', hmatch⟩ := runStmt_crcCommand_idle hafter'.idle rfl (exec_crcCheck x _)
  have hsum : u.crc = checksum a := by rw [hcrc', hcrc]; rfl
  refine ⟨v, ?_, ?_, hcrc''.trans hsum, ?_⟩
  · rw [validation, List.cons_append, runScript, ht, andThen, runScript_append, hu, andThen, runScript, hv]; rfl
  · have := (hafter.trans hafter').trans hafter''
    rwa [Nat.add_comm 1] at this
  · rw [hmatch, ← hsum]
    exact beq_iff_eq

/-! ### The address read -/

theorem readStatus_bit2 (s : State) : (readRegister s 0x01)[2] = s.crcMatch := (statusWord_bits s).2.2.1

/-- Settles O58: presence detect, command byte, eight reads, validation and the read of STATUS, each from the idle state
that the one before it leaves. -/
theorem addressReadReturnsTheValidatedBytes : Obligations.AddressReadReturnsTheValidatedBytes := by
  intro s c hs hdevice D first read L
  have hfirst : first = waveCycles (resetWave s.prof) + 3 + (waveCycles (writeWave s.prof c) + 2) := by
    simp only [first, D, waveCycles_norm]
  have hread : read = waveCycles (readWave s.prof) + 3 := by simp only [read, D, waveCycles_norm]
  obtain ⟨t, ht, hreset⟩ := ifPresent_present hs hdevice
  obtain ⟨u, hwrite, hu⟩ := callWrite_ends ht.idle c
  obtain ⟨v, bytes, hreads, hv, hlen, hbits⟩ := readBytes_ends 8 hu.idle
  obtain ⟨w, hcheck, hw, hcrc, hmatch⟩ := runScript_validation (bytes.take 7) (bytes.getD 7 0) hv.idle
  have hsent : IdleAfter first s u := by
    have := ht.trans hu.idleAfter
    rwa [ht.prof, ← hfirst] at this
  rw [hsent.prof, ← hread] at hv hbits
  have hend := ((hsent.trans hv).trans hw).trans (idleAfter_read hw.idle 0x01)
  refine ⟨_, bytes, w.crcMatch, ?_, hlen, fun i j hi hj => ?_, hmatch, State.busy_eq_false.2 hend.idle, hcrc, rfl,
    hend.prof, ?_⟩
  · rw [addressRead, hreset, hwrite, andThen, hreads, andThen, hcheck, andThen, readValue_idle 0x01 hw.idle]
    simp only [andThen, readStatus_bit2]
  · rw [hbits i j hi hj, hsent.line]
    simp only [← Nat.add_assoc]
    rfl
  · rw [hend.cycle, List.length_take, hlen]
    omega

end Sys2Proof.Machine
end

section
/-! The transactions around the presence detect (45_transactions.md): all three stop when no device answers (R141); the
convert and the scratchpad read with a device present (R143, R149), and the reading of two bytes (R148). -/

namespace Sys2Proof.Machine

/-! ### No device -/

/-- The presence detect with no device: the transaction is over, whatever was to follow (R141). -/
theorem ifPresent_absent {s : State} (hs : s.seq = [])
    (hfree : slaveLowAt s (1 + tRstl s.prof + tPds s.prof) = false) :
    ∃ t, runScript callReset s = .next t ∧ t.seq = []
      ∧ ∀ {α : Type} (rest : State → Host.Outcome (State × α) Fault Refusal), ifPresent s rest = .next (t, none) := by
  obtain ⟨t, ht, h⟩ := callReset_ends hs
  refine ⟨_, ht, h.idle, fun rest => ?_⟩
  have habsent : presenceRead (t.present (hostRead 0x01)).popInputs = false := by
    rw [presenceRead_eq]
    exact h.presence_reset.trans hfree
  rw [ifPresent, ht, andThen, habsent, if_neg Bool.false_ne_true]

/-- Settles O57: each transaction is a presence detect and a rest that is not reached. -/
theorem transactionStopsWithoutPresence : Obligations.TransactionStopsWithoutPresence := by
  intro s c d hs hfree
  obtain ⟨t, ht, hidle, hstop⟩ := ifPresent_absent hs hfree
  exact ⟨t, ht, State.busy_eq_false.2 hidle, hstop _, hstop _, hstop _⟩

/-! ### A device present -/

/-- `CALL_WRITE c; CALL_WRITE d` from an idle state (R69). -/
theorem runScript_callWrites {s : State} (hs : s.seq = []) (c d : Byte) :
    ∃ t, runScript (callWrite c ++ callWrite d) s = .next t
      ∧ IdleAfter ((waveCycles (writeWave s.prof c) + 2) + (waveCycles (writeWave s.prof d) + 2)) s t := by
  obtain ⟨t, ht, h⟩ := callWrite_ends hs c
  obtain ⟨u, hu, h'⟩ := callWrite_ends h.idle d
  refine ⟨u, by rw [runScript_append, ht, andThen, hu], ?_⟩
  have hboth := h.idleAfter.trans h'.idleAfter
  rwa [h.prof] at hboth

/-- The cycles of CALL_RESET and the two command bytes after it (R69, R194). -/
def preambleCycles (p : Profile) (c d : Byte) : Nat :=
  (waveCycles (resetWave p) + 3) + (waveCycles (writeWave p c) + 2) + (waveCycles (writeWave p d) + 2)

/-- The presence detect with a device present and the two command bytes: the rest of the transaction starts from the idle
state they leave (R143, R149). -/
theorem ifPresent_callWrites {s : State} (hs : s.seq = [])
    (hdevice : slaveLowAt s (1 + tRstl s.prof + tPds s.prof) = true) (c d : Byte) :
    ∃ t, IdleAfter (preambleCycles s.prof c d) s t
      ∧ ∀ {α : Type} (rest : State → Host.Outcome (State × α) Fault Refusal),
        ifPresent s (fun u => andThen (runScript (callWrite c ++ callWrite d) u) rest)
          = andThen (rest t) fun r => .next (r.1, some r.2) := by
  obtain ⟨t, ht, hpresent⟩ := ifPresent_present hs hdevice
  obtain ⟨u, hu, h⟩ := runScript_callWrites ht.idle c d
  refine ⟨u, ?_, fun rest => by rw [hpresent, hu, andThen]⟩
  have hboth := ht.trans h
  rwa [ht.prof, ← Nat.add_assoc] at hboth

/-- Settles O59: after the same preamble the convert is done, and the scratchpad read has its nine reads to go. -/
theorem convertAndScratchpadReadComplete : Obligations.ConvertAndScratchpadReadComplete := by
  intro s c d hs hdevice D first read L
  have hfirst : first = preambleCycles s.prof c d := by simp only [first, D, waveCycles_norm, preambleCycles]
  have hread : read = waveCycles (readWave s.prof) + 3 := by simp only [read, D, waveCycles_norm]
  obtain ⟨t, ht, hrest⟩ := ifPresent_callWrites hs hdevice c d
  obtain ⟨u, bytes, hu, hreads, hlen, hbits⟩ := readBytes_ends 9 ht.idle
  rw [ht.prof, ← hread] at hreads hbits
  rw [← hfirst] at ht
  have hend := ht.trans hreads
  refine ⟨⟨t, ?_, State.busy_eq_false.2 ht.idle, ht.prof, ht.cycle⟩, u, bytes, ?_, hlen, fun i j hi hj => ?_,
    State.busy_eq_false.2 hend.idle, hend.prof, hend.cycle.trans (Nat.add_assoc ..).symm⟩
  · rw [startConversion, hrest]; rfl
  · rw [scratchpadRead, hrest, hu]; rfl
  · rw [hbits i j hi hj, ht.line]
    simp only [← Nat.add_assoc]
    rfl

/-! ### The reading (R148) -/

theorem toNat_scratchpadReading (s0 s1 : Byte) :
    (scratchpadReading s0 s1).toNat = (s1.toNat % 16) * 256 + s0.toNat := by
  have hnibble : (s1 &&& 0x0F).toNat = s1.toNat % 16 := by
    rw [BitVec.toNat_and]; exact Nat.and_two_pow_sub_one_eq_mod s1.toNat 4
  have hhigh : (((s1 &&& 0x0F).setWidth 16) <<< 8).toNat = (s1.toNat % 16) <<< 8 := by
    rw [BitVec.toNat_shiftLeft, BitVec.toNat_setWidth, hnibble, Nat.shiftLeft_eq, Nat.shiftLeft_eq]; omega
  have hlow : (s0.setWidth 16).toNat = s0.toNat := by rw [BitVec.toNat_setWidth]; omega
  rw [scratchpadReading, BitVec.toNat_or, hhigh, hlow, ← Nat.shiftLeft_add_eq_or_of_lt s0.isLt, Nat.shiftLeft_eq]

/-- Settles O60: the nibble and the byte do not overlap, so the `|` of R148 is a sum, of at most 15 * 256 + 255. -/
theorem scratchpadReadingIsTwelveBits : Obligations.ScratchpadReadingIsTwelveBits := by
  intro s0 s1
  have hvalue := toNat_scratchpadReading s0 s1
  exact ⟨hvalue, by omega⟩

end Sys2Proof.Machine
end

section
/-! Boot (70_reset_and_hazards.md R183, R184): what writing profile registers from an idle state leaves, register by
register, and the script of a reset pulse and all ten writes. -/

namespace Sys2Proof.Machine

/-- The write of `PROFILE` to one register (R69). -/
def profileWrite (p : Profile) (i : Fin 10) : HostInput := hostWrite (BitVec.ofNat 5 (0x10 + i.val)) p[i]

theorem profileWrites_eq_map (p : Profile) : profileWrites p = (List.finRange 10).map (profileWrite p) := rfl

/-- What writing the registers `is` of `p` one a cycle leaves: those registers hold their values of `p`, the others and the
rest of the block are as in `s`, and the block is idle. -/
structure ProfileWritten (p : Profile) (is : List (Fin 10)) (s t : State) : Prop where
  prof : ∀ j : Fin 10, t.prof[j] = if j ∈ is then p[j] else s.prof[j]
  idle : t.seq = []
  cycle : t.cycle = s.cycle + is.length
  cmderr : t.cmderr = s.cmderr
  rx : t.rx = s.rx
  crc : t.crc = s.crc
  presence : t.presence = s.presence
  crcMatch : t.crcMatch = s.crcMatch

theorem ProfileWritten.refl (p : Profile) {s : State} (hs : s.seq = []) : ProfileWritten p [] s s :=
  ⟨fun _ => by rw [if_neg List.not_mem_nil], hs, rfl, rfl, rfl, rfl, rfl, rfl⟩

/-- The state after the cycle of one profile write. -/
def State.afterProfileWrite (s : State) (p : Profile) (i : Fin 10) : State :=
  ((s.present (profileWrite p i)).setProf i p[i]).popInputs

theorem step_profileWrite (p : Profile) (i : Fin 10) {s : State} (hs : s.seq = []) :
    step (s.present (profileWrite p i)) = .next (s.afterProfileWrite p i) := by
  rw [step_profile_idle (s := s.present (profileWrite p i)) rfl (index_of_profile i) hs,
    endCycle_idle (s := s.present (profileWrite p i)) hs]
  rfl

theorem afterProfileWrite_prof (s : State) (p : Profile) (i j : Fin 10) :
    (s.afterProfileWrite p i).prof[j] = if j = i then p[j] else s.prof[j] := by
  change (s.prof.set i p[i])[j] = _
  by_cases h : j = i
  · subst h; simp
  · have hij : i.val ≠ j.val := fun h' => h (Fin.ext h'.symm)
    simp [h, hij]

/-- One write before the others: a register written again later holds the same value of `p`. -/
theorem ProfileWritten.cons {p : Profile} {i : Fin 10} {is : List (Fin 10)} {s t : State}
    (h : ProfileWritten p is (s.afterProfileWrite p i) t) : ProfileWritten p (i :: is) s t := by
  refine ⟨fun j => ?_, h.idle, h.cycle.trans (Nat.add_right_comm ..), h.cmderr, h.rx, h.crc, h.presence, h.crcMatch⟩
  rw [h.prof, afterProfileWrite_prof]
  by_cases hj : j ∈ is
  · rw [if_pos hj, if_pos (List.mem_cons_of_mem i hj)]
  · simp only [hj, if_false, List.mem_cons, or_false]

/-- From an idle state every write of a profile register is accepted (R45), in whatever order the registers come (R183). -/
theorem driveAll_profileWrite (p : Profile) (is : List (Fin 10)) {s : State} (hs : s.seq = []) :
    ∃ t, driveAll (is.map (profileWrite p)) s = .next t ∧ ProfileWritten p is s t := by
  induction is generalizing s with
  | nil => exact ⟨s, rfl, .refl p hs⟩
  | cons i is ih =>
    have hidle : (s.afterProfileWrite p i).seq = [] := hs
    obtain ⟨t, ht, h⟩ := ih hidle
    exact ⟨t, by rw [List.map_cons, driveAll, step_profileWrite p i hs, andThen, ht], h.cons⟩

/-- `PROFILE p` writes every register. -/
theorem runStmt_profile (p : Profile) {s : State} (hs : s.seq = []) :
    ∃ t, runStmt (.profile p) s = .next t ∧ t.prof = p ∧ ProfileWritten p (List.finRange 10) s t := by
  obtain ⟨t, ht, h⟩ := driveAll_profileWrite p (List.finRange 10) hs
  refine ⟨t, by rw [runStmt, profileWrites_eq_map, ht], Vector.ext fun j hj => ?_, h⟩
  have hreg := h.prof ⟨j, hj⟩
  rwa [if_pos (List.mem_finRange _)] at hreg

/-- `RESET_PULSE` is one reset cycle (R69). -/
theorem runStmt_resetPulse (s : State) : runStmt .resetPulse s = .next (resetCycle (s.present hostReset)) := by
  rw [runStmt, driveAll, step_reset (s := s.present hostReset) rfl]; rfl

/-- Settles O55: the reset cycle leaves the block idle, so the ten writes are accepted, and they leave everything but the
profile as reset left it. -/
theorem bootConfiguresTheProfile : Obligations.BootConfiguresTheProfile := by
  intro s p
  obtain ⟨t, ht, hprof, h⟩ := runStmt_profile p (State.resetCycle_seq (s.present hostReset))
  have hrun : runScript [.resetPulse, .profile p] s = .next t := by
    rw [runScript, runStmt_resetPulse, andThen, runScript, ht]; rfl
  exact ⟨t, hrun, hprof, State.busy_eq_false.2 h.idle, h.cmderr, h.rx, h.crc, h.presence, h.crcMatch, h.cycle⟩

end Sys2Proof.Machine
end
